-- ==== Sys2Proof/Word.lean ====
section
/-! DEFINITION. The word types of hapax8 CORE (spec/00_scope.md R5, R7; spec/10_state.md R20, R35). -/

namespace Sys2Proof

/-- A memory cell or a general register: 8 bits (R5 `REG_BITS`). -/
abbrev Byte := BitVec 8

/-- An instruction word, the program counter, the index register or a stack cell: 16 bits
(R5 `PC_BITS`, `INDEX_BITS`; R24; R110). -/
abbrev Word := BitVec 16

/-- A register selector, regX or regY: 4 bits, so every value names a register (R112). -/
abbrev Reg := BitVec 4

/-- A 4-bit immediate (R112 `immNibble`). -/
abbrev Nibble := BitVec 4

/-- A 12-bit memory address (R112 `address`, R5 `ADDR_BITS`). -/
abbrev Addr := BitVec 12

/-- General register 15, vF, the flag register (spec/10_state.md R21). -/
abbrev vF : Reg := 0xF#4

/-- A boolean written to a register is 1 for true and 0 for false (spec/40_execute_cycle.md R149). -/
def flagByte (b : Bool) : Byte := if b then 1#8 else 0#8

end Sys2Proof
end

