-- ==== Sys2Proof/Config.lean ====
section
/-! DEFINITION. The constants the spec fixes (spec/00_scope.md R5) and the parameters it leaves open
(R6, spec/10_state.md R31, spec/92_eei_decisions.md D1, D2, D11). -/

namespace Sys2Proof

/-- `MEM_SIZE`: addresses 0x000 to 0xFFF (R5). -/
abbrev memSize : Nat := 4096

/-- `LOAD_ADDR`: where a program image starts and where pc starts (R5). -/
abbrev loadAddr : Nat := 0x200

/-- The longest program image: 0x1000 - 0x200 bytes (spec/15_blocks_and_interfaces.md R60). -/
abbrev maxImage : Nat := 3584

/-- `UNKNOWN_POLICY`: what an unknown opcode does (R6, D1). -/
inductive UnknownPolicy where
  /-- The cycle raises UnknownOpcode (spec/60_exceptions.md R242). -/
  | strict
  /-- The cycle is a reported no-op that advances pc (spec/60_exceptions.md R269). -/
  | permissive
  deriving DecidableEq, Repr

/-- `XFER_MODE`: how many registers STR and LDR transfer (R6, D2, spec/45_memory_transfer.md R233). -/
inductive XferMode where
  /-- One register, `v[X]`. -/
  | single
  /-- The registers `v[0]` to `v[X]`. -/
  | range
  deriving DecidableEq, Repr

/-- The four open parameters (R6). They are fixed for the life of a Machine (R31). -/
structure Config where
  unknownPolicy : UnknownPolicy
  xferMode : XferMode
  /-- `FONT_BASE`: the address `init` copies the font to. -/
  fontBase : Nat
  /-- `FONT_DATA`: the font bytes. -/
  fontData : List Byte
  deriving DecidableEq, Repr

/-- The configuration of `State.reset`: the spec's defaults `strict` (D1) and `single` (D2).
DESIGN CHOICE, unsafe (log 2): the font parameters are OPEN (D11) and this value takes
`FONT_DATA` empty, as the spec's own test vectors do (spec/95_test_vectors.md, Conventions). -/
def Config.standard : Config :=
  { unknownPolicy := .strict, xferMode := .single, fontBase := 0, fontData := [] }

end Sys2Proof
end

