-- ==== Sys2Proof/Machine/State.lean ====
section
/-! DEFINITION. The state of the Machine (spec/10_state.md R20 to R32), the fatal conditions
(spec/60_exceptions.md R240) and reset (spec/70_reset_and_hazards.md R280). -/

namespace Sys2Proof.Machine

/-- The 4096 byte cells of R28: the cells that differ from what an unlisted address reads as
(`Memory.unlisted` of Ops.lean), by strictly rising address. -/
abbrev Memory := List Host.Cell

/-- The display buffer: 32 rows of 64 one-bit cells, `disp[y][x]` being bit x of row y
(R29; one bit per cell, spec/44_display.md R216). -/
abbrev Display := Vector (BitVec 64) 32

/-- The Machine: the fields of R20 to R29 and the static configuration of R31. -/
structure State where
  /-- The general registers v0 to vF (R20, R21). -/
  v : Vector Byte 16
  /-- The index register (R22). -/
  I : Word
  /-- The program counter (R23). -/
  pc : Word
  /-- The number of live return addresses and the index of the next free cell (R25). -/
  sp : BitVec 4
  /-- The call-stack cells (R24). -/
  stack : Vector Word 16
  /-- The delay timer (R26). -/
  DT : Byte
  /-- The sound timer (R27). -/
  ST : Byte
  /-- Memory (R28). -/
  mem : Memory
  /-- The display buffer (R29). -/
  disp : Display
  /-- DESIGN CHOICE, safe (log 1): the parameters of R31 are no state in the spec; they stand here
  because the type of `step` has no other place for them. Nothing changes them. -/
  config : Config
  deriving DecidableEq, Repr

/-- The fatal conditions of R240, with their information words. Each leaves the Machine as it was
(R245), so a run can only end there or at `init` (R251). All are the spec's own, so stopping is safe. -/
inductive Fault where
  /-- Raised by the fetch of any cycle: pc does not leave room for a two-byte word (R241). Safe. -/
  | fetchOutOfBounds (pc : Word)
  /-- Raised by a cycle that fetched an unknown opcode, in policy `strict` only (R242). Safe. -/
  | unknownOpcode (word : Word)
  /-- Raised by CALL when sp = 15 (R243). Safe. -/
  | stackOverflow (pc : Word)
  /-- Raised by RET when sp = 0 (R244). Safe. -/
  | stackUnderflow (pc : Word)
  /-- Raised by DRW, STR and LDR for a data address above 0xFFF (R246). Safe. -/
  | memoryOutOfBounds (address : Nat)
  /-- Raised by the host operation `loadProgram` for an image that does not fit (R247). Safe. -/
  | loadError (length : Nat)
  deriving DecidableEq, Repr

/-- The reasons the model itself refuses an instruction. -/
inductive Refusal where
  /-- An instruction without a meaning in `exec`. Raised by nothing in this model. Safe. -/
  | notModelled (mnemonic : String)
  deriving DecidableEq, Repr

/-- The Machine after `init` with a given configuration (R280, R32). No memory cell is listed: the
reset contents, font included, are what unlisted addresses read as. The display is unlit by the
spec's decision D12. -/
def State.init (c : Config) : State :=
  { v := Vector.replicate 16 0x00#8
    I := 0x0000#16
    pc := 0x0200#16
    sp := 0#4
    stack := Vector.replicate 16 0x0000#16
    DT := 0x00#8
    ST := 0x00#8
    mem := []
    disp := Vector.replicate 32 0#64
    config := c }

/-- The Machine right after reset, in the configuration `Config.standard` (log 2). -/
def State.reset : State := State.init Config.standard

end Sys2Proof.Machine
end

