-- ==== Sys2Proof/Syntax.lean ====
section
/-! DEFINITION. The 23 instructions of hapax8 CORE, one constructor per row of spec/opcode_table.json
(spec/30_encoding.md R118). Bits a row ignores (R115) are no operand, so they are not part of the term. -/

namespace Sys2Proof

/-- An instruction with its operands: `x` and `y` are the register selectors, `kk` the byte
immediate, `n` the nibble immediate, `nnn` the address (R112). -/
inductive Instr where
  | cls
  | ret
  | jp (nnn : Addr)
  | call (nnn : Addr)
  | se (x : Reg) (kk : Byte)
  | sne (x : Reg) (kk : Byte)
  | ser (x y : Reg)
  | ld (x : Reg) (kk : Byte)
  | add (x : Reg) (kk : Byte)
  | mov (x y : Reg)
  | or (x y : Reg)
  | and (x y : Reg)
  | xor (x y : Reg)
  | addr (x y : Reg)
  | sub (x y : Reg)
  | shr (x : Reg)
  | subn (x y : Reg)
  | shl (x : Reg)
  | sner (x y : Reg)
  | ldi (nnn : Addr)
  | drw (x y : Reg) (n : Nibble)
  | str (x : Reg)
  | ldr (x : Reg)
  deriving DecidableEq, Repr

/-- The mnemonics of R118, without operands. -/
inductive Opcode where
  | cls | ret | jp | call | se | sne | ser | ld | add | mov | or | and | xor | addr | sub | shr
  | subn | shl | sner | ldi | drw | str | ldr
  deriving DecidableEq, Repr

/-- Which row of R118 an instruction belongs to. -/
def Instr.op : Instr → Opcode
  | .cls => .cls
  | .ret => .ret
  | .jp _ => .jp
  | .call _ => .call
  | .se _ _ => .se
  | .sne _ _ => .sne
  | .ser _ _ => .ser
  | .ld _ _ => .ld
  | .add _ _ => .add
  | .mov _ _ => .mov
  | .or _ _ => .or
  | .and _ _ => .and
  | .xor _ _ => .xor
  | .addr _ _ => .addr
  | .sub _ _ => .sub
  | .shr _ => .shr
  | .subn _ _ => .subn
  | .shl _ => .shl
  | .sner _ _ => .sner
  | .ldi _ => .ldi
  | .drw _ _ _ => .drw
  | .str _ => .str
  | .ldr _ => .ldr

end Sys2Proof
end

