-- ==== Sys2Proof/WellFormed.lean ====
section
/-! DEFINITION. The checks on what is given to the machine from outside: the operands of an instruction
(spec/30_encoding.md R112, R113), the configuration (spec/00_scope.md R6) and a program image
(spec/15_blocks_and_interfaces.md R60). -/

namespace Sys2Proof

/-- An operand's value and the number of values its field can hold (R112). -/
def Instr.operandRanges : Instr → List (Nat × Nat)
  | .cls | .ret => []
  | .jp nnn | .call nnn | .ldi nnn => [(nnn.toNat, 4096)]
  | .se x kk | .sne x kk | .ld x kk | .add x kk => [(x.toNat, 16), (kk.toNat, 256)]
  | .ser x y | .sner x y | .mov x y | .or x y | .and x y | .xor x y => [(x.toNat, 16), (y.toNat, 16)]
  | .addr x y | .sub x y | .subn x y => [(x.toNat, 16), (y.toNat, 16)]
  | .shr x | .shl x | .str x | .ldr x => [(x.toNat, 16)]
  | .drw x y n => [(x.toNat, 16), (y.toNat, 16), (n.toNat, 16)]

/-- Every operand is inside its range. -/
def rangesHold (ranges : List (Nat × Nat)) : Bool := ranges.all fun r => decide (r.1 < r.2)

/-- Every operand fits its field. The operand types have the widths of the fields, so every term
passes: the selectors are "guaranteed by the 4-bit width" and no selector check can fail (R112). -/
def Instr.wf (i : Instr) : Bool := rangesHold i.operandRanges

/-- The font lies inside the reserved region: `FONT_BASE` in 0x000..0x1FF and
`FONT_BASE + len(FONT_DATA) <= 0x200` (R6, D11). -/
def Config.wf (c : Config) : Bool :=
  decide (c.fontBase < loadAddr) && decide (c.fontBase + c.fontData.length ≤ loadAddr)

/-- A program image fits the memory from 0x200 up: at most 3584 bytes (R60). -/
def imageFits (image : List Byte) : Bool := decide (image.length ≤ maxImage)

end Sys2Proof
end

