-- ==== Sys2Proof/Machine/Ops.lean ====
section
/-! DEFINITION. The named operations every meaning is written with: raising a fatal condition, memory,
registers, the program counter and the call stack. -/

namespace Sys2Proof.Machine

/-- The result of an operation: a next state, a fault or a refusal. -/
abbrev Result := Host.Outcome State Fault Refusal

/-! ## Fatal conditions: what stands in for taking an exception -/

/-- End the cycle with a fatal condition. There is no vector, no saved register and no handler; the
condition is the result of the operation and the Machine is left as it was
(spec/60_exceptions.md R245, R249). -/
def raise (f : Fault) : Result := .fault f

/-- The code of a fatal condition (R240). -/
def Fault.code : Fault → Nat
  | .fetchOutOfBounds _ => 1
  | .unknownOpcode _ => 2
  | .stackOverflow _ => 3
  | .stackUnderflow _ => 4
  | .memoryOutOfBounds _ => 5
  | .loadError _ => 6

/-- The information word of a fatal condition (R240). -/
def Fault.info : Fault → Nat
  | .fetchOutOfBounds pc => pc.toNat
  | .unknownOpcode word => word.toNat
  | .stackOverflow pc => pc.toNat
  | .stackUnderflow pc => pc.toNat
  | .memoryOutOfBounds address => address
  | .loadError length => length

/-! ## Field updates -/

/-- `pc <- a`. -/
def State.setPc (s : State) (a : Word) : State := { s with pc := a }
/-- `I <- i`. -/
def State.setI (s : State) (i : Word) : State := { s with I := i }
/-- `sp <- k`. -/
def State.setSp (s : State) (k : BitVec 4) : State := { s with sp := k }
/-- The call-stack cells replaced. -/
def State.setStack (s : State) (stack : Vector Word 16) : State := { s with stack := stack }
/-- Memory replaced. -/
def State.setMem (s : State) (m : Memory) : State := { s with mem := m }
/-- The display buffer replaced. -/
def State.setDisp (s : State) (d : Display) : State := { s with disp := d }
/-- `DT <- dt`, `ST <- st`. -/
def State.setTimers (s : State) (dt st : Byte) : State := { s with DT := dt, ST := st }

/-! ## General registers (spec/10_state.md R20) -/

/-- `v[r]`. -/
def State.getV (s : State) (r : Reg) : Byte := s.v[r.toNat]'(r.isLt)

/-- `v[r] <- b`. No register is hardwired (R20). -/
def State.setV (s : State) (r : Reg) (b : Byte) : State := { s with v := s.v.set r.toNat b r.isLt }

/-- The registers `v[0]` to `v[x]`, lowest first (spec/45_memory_transfer.md R230). -/
def State.regsUpTo (s : State) (x : Reg) : List Byte :=
  (List.range (x.toNat + 1)).map fun k => s.getV (BitVec.ofNat 4 k)

/-- `v[k] <- bytes[0]`, `v[k+1] <- bytes[1]`, and so on (R231). -/
def State.setRegs : List Byte → Nat → State → State
  | [], _, s => s
  | b :: bytes, k, s => State.setRegs bytes (k + 1) (s.setV (BitVec.ofNat 4 k) b)

/-! ## Memory (spec/20_memory.md) -/

/-- What an address that is not listed reads as: its contents after `init`, the font byte the
configuration puts there and 0x00 elsewhere (spec/10_state.md R32, spec/70_reset_and_hazards.md R280). -/
def Memory.unlisted (c : Config) (a : Nat) : Byte :=
  if a < c.fontBase then 0x00#8 else c.fontData.getD (a - c.fontBase) 0x00#8

/-- The byte listed for an address. -/
def Memory.find : Memory → Nat → Option Byte
  | [], _ => none
  | cell :: m, a => if cell.1 = a then some cell.2 else Memory.find m a

/-- The byte at an address. -/
def Memory.read (c : Config) (m : Memory) (a : Nat) : Byte :=
  match Memory.find m a with
  | some b => b
  | none => Memory.unlisted c a

/-- A memory without the cell of an address. -/
def Memory.erase (m : Memory) (a : Nat) : Memory := m.filter fun cell => decide (cell.1 ≠ a)

/-- A memory with a cell put before the first cell of a higher address. -/
def Memory.insert : Memory → Nat → Byte → Memory
  | [], a, b => [(a, b)]
  | cell :: m, a, b => if a < cell.1 then (a, b) :: cell :: m else cell :: Memory.insert m a b

/-- Store a byte. The canonical form is kept: a cell that reads as an unlisted one is not listed. -/
def Memory.write (c : Config) (m : Memory) (a : Nat) (b : Byte) : Memory :=
  if b = Memory.unlisted c a then Memory.erase m a else Memory.insert (Memory.erase m a) a b

/-- The addresses rise strictly from a lower bound. -/
def Memory.sortedFrom : Nat → Memory → Bool
  | _, [] => true
  | lo, cell :: m => decide (lo ≤ cell.1) && Memory.sortedFrom (cell.1 + 1) m

/-- The canonical form: strictly rising addresses, each below 0x1000 (R80), no cell equal to what an
unlisted address reads as. -/
def Memory.wf (c : Config) (m : Memory) : Bool :=
  Memory.sortedFrom 0 m &&
    m.all fun cell => decide (cell.1 < memSize) && decide (cell.2 ≠ Memory.unlisted c cell.1)

/-- The byte of the Machine's memory at an address. -/
def State.byteAt (s : State) (a : Nat) : Byte := Memory.read s.config s.mem a

/-- `mem[a] <- b` for an address already checked. -/
def State.storeByte (s : State) (a : Nat) (b : Byte) : State :=
  s.setMem (Memory.write s.config s.mem a b)

/-- `MemRead(a, 1)`: the byte, or the fatal condition (R84). -/
def State.memRead (s : State) (a : Nat) : Except Fault Byte :=
  if a ≤ 0xFFF then .ok (s.byteAt a) else .error (.memoryOutOfBounds a)

/-- `MemWrite(a, 1, b)`: the Machine with that one cell changed, or the fatal condition (R85). -/
def State.memWrite (s : State) (a : Nat) (b : Byte) : Except Fault State :=
  if a ≤ 0xFFF then .ok (s.storeByte a b) else .error (.memoryOutOfBounds a)

/-- The bytes at `a`, `a + 1`, ..., `a + n - 1`. -/
def State.bytesFrom (s : State) (a n : Nat) : List Byte := (List.range n).map fun k => s.byteAt (a + k)

/-- `mem[a] <- bytes[0]`, `mem[a+1] <- bytes[1]`, and so on. -/
def State.storeBytes : List Byte → Nat → State → State
  | [], _, s => s
  | b :: bytes, a, s => State.storeBytes bytes (a + 1) (s.storeByte a b)

/-- The lowest of the `count` addresses from `base` up that lies above 0xFFF, if there is one
(R86, spec/40_execute_cycle.md R148). -/
def firstOutOfBounds (base count : Nat) : Option Nat :=
  if count ≥ 1 ∧ base + count - 1 > 0xFFF then some (max base 0x1000) else none

/-- Go on if the `count` addresses from `base` up exist; raise MemoryOutOfBounds otherwise, before
anything is written (spec/40_execute_cycle.md R147, spec/60_exceptions.md R246). -/
def checkingRange (base count : Nat) (goOn : Result) : Result :=
  match firstOutOfBounds base count with
  | some a => raise (.memoryOutOfBounds a)
  | none => goOn

/-! ## Program counter (spec/40_execute_cycle.md R143, R144, R145, R150) -/

/-- `pc <- pc0 + 2`, the sequential advance (R143). -/
def State.advance (s : State) : State := s.setPc (s.pc + 2#16)

/-- `pc <- pc0 + 4` when the condition holds, `pc <- pc0 + 2` otherwise (R144). -/
def State.skipIf (s : State) (condition : Bool) : State :=
  s.setPc (if condition then s.pc + 4#16 else s.pc + 2#16)

/-! ## Call stack (spec/41_control_flow.md R160) -/

/-- `stack[k]`. -/
def State.stackAt (s : State) (k : BitVec 4) : Word := s.stack[k.toNat]'(k.isLt)

/-- `push(a)`: overflow is tested against sp = 15; the cell at sp is written, then sp rises. -/
def State.push (s : State) (a : Word) : Except Fault State :=
  if s.sp = 15#4 then .error (.stackOverflow s.pc)
  else .ok ((s.setStack (s.stack.set s.sp.toNat a s.sp.isLt)).setSp (s.sp + 1#4))

/-- `pop()`: sp falls, then the cell at the new sp is read; the cell keeps its value (D16). -/
def State.pop (s : State) : Except Fault (Word × State) :=
  if s.sp = 0#4 then .error (.stackUnderflow s.pc)
  else .ok (s.stackAt (s.sp - 1#4), s.setSp (s.sp - 1#4))

end Sys2Proof.Machine
end

