-- ==== Sys2Proof/Machine/Operands.lean ====
section
/-! DEFINITION. The operand forms (spec/30_encoding.md R113): register operands, unsigned immediates, the
absolute address `nnn` and the register-indirect address through I. Every read is of the state at the
start of the cycle, before any write (spec/40_execute_cycle.md R146). -/

namespace Sys2Proof.Machine

/-- `zext_16(nnn)`: a 12-bit address as pc or I (R113; the mask of spec/42_immediate_and_index.md R182
is the identity on a 12-bit field). -/
def zext16 (nnn : Addr) : Word := nnn.setWidth 16

/-- `vx` and `vy`, latched (R146). -/
def State.latch (s : State) (x y : Reg) : Byte × Byte := (s.getV x, s.getV y)

/-- The effective address `I` of a memory access, an unbounded integer
(spec/20_memory.md R86, spec/45_memory_transfer.md R234). -/
def State.indexAddr (s : State) : Nat := s.I.toNat

/-- How many bytes STR and LDR move: one in mode `single`, X + 1 in mode `range`
(spec/20_memory.md R87). -/
def State.transferCount (s : State) (x : Reg) : Nat :=
  match s.config.xferMode with
  | .single => 1
  | .range => x.toNat + 1

end Sys2Proof.Machine
end

