-- ==== Sys2Proof/Machine/Flags.lean ====
section
/-! DEFINITION. The flag computations (spec/43_alu.md R195 to R199, R200) and the results beside them,
exact on natural numbers and reduced modulo 256 at the end (spec/00_scope.md R9). vF is the only flag
(spec/10_state.md R21). -/

namespace Sys2Proof.Machine

/-- The carry out of bit 7 of `a + b` (R195). -/
def carryOut (a b : Byte) : Bool := decide (a.toNat + b.toNat > 255)

/-- No borrow in `a - b`: 1 exactly when a >= b, equality included (R196, R198, R200). -/
def noBorrow (a b : Byte) : Bool := decide (a.toNat ≥ b.toNat)

/-- The bit a right shift by one moves out (R197). -/
def lowBit (a : Byte) : Bool := decide (a.toNat % 2 = 1)

/-- The bit a left shift by one moves out (R199). -/
def highBit (a : Byte) : Bool := decide (a.toNat / 128 = 1)

/-- `(a + b) mod 256` (R181, R195). -/
def addMod (a b : Byte) : Byte := BitVec.ofNat 8 ((a.toNat + b.toNat) % 256)

/-- `(a - b) mod 256`, the non-negative residue (R196, R200). -/
def subMod (a b : Byte) : Byte := BitVec.ofNat 8 ((a.toNat + 256 - b.toNat) % 256)

/-- `a >> 1`, bit 7 filled with 0 (R197). -/
def shiftRight1 (a : Byte) : Byte := BitVec.ofNat 8 (a.toNat / 2)

/-- `(a << 1) mod 256`, bit 0 filled with 0 (R199). -/
def shiftLeft1 (a : Byte) : Byte := BitVec.ofNat 8 (2 * a.toNat % 256)

/-- Write the flag to vF, then the result to `v[x]`, so that the result wins when x is 15
(spec/40_execute_cycle.md R146, the spec's decision D4). -/
def State.setFlagThen (s : State) (flag : Bool) (x : Reg) (result : Byte) : State :=
  (s.setV vF (flagByte flag)).setV x result

end Sys2Proof.Machine
end

