-- ==== Sys2Proof/Machine/Alu.lean ====
section
/-! DEFINITION. Register-register ALU instructions: MOV, OR, AND, XOR, ADDR, SUB, SHR, SUBN, SHL
(spec/43_alu.md). -/

namespace Sys2Proof.Machine

/-- An instruction whose only register write is its result, a function of the latched operands (R190). -/
def aluResult (result : Byte → Byte → Byte) (x y : Reg) (s : State) : Result :=
  .next (s.setV x (result (s.latch x y).1 (s.latch x y).2)).advance

/-- An instruction that writes a flag and then a result, both functions of the latched operands (R190). -/
def aluFlagResult (flag : Byte → Byte → Bool) (result : Byte → Byte → Byte) (x y : Reg) (s : State) : Result :=
  let (vx, vy) := s.latch x y
  .next (s.setFlagThen (flag vx vy) x (result vx vy)).advance

/-- MOV (R191): `v[X] <- vy`. -/
def execMov (x y : Reg) (s : State) : Result := aluResult (fun _ vy => vy) x y s

/-- OR (R192). -/
def execOr (x y : Reg) (s : State) : Result := aluResult (fun vx vy => vx ||| vy) x y s

/-- AND (R193). -/
def execAnd (x y : Reg) (s : State) : Result := aluResult (fun vx vy => vx &&& vy) x y s

/-- XOR (R194). -/
def execXor (x y : Reg) (s : State) : Result := aluResult (fun vx vy => vx ^^^ vy) x y s

/-- ADDR (R195): vF is the carry out of bit 7. -/
def execAddr (x y : Reg) (s : State) : Result := aluFlagResult carryOut addMod x y s

/-- SUB (R196): X minus Y; vF is 1 when no borrow occurs. -/
def execSub (x y : Reg) (s : State) : Result := aluFlagResult noBorrow subMod x y s

/-- SHR (R197): `v[X]` alone is shifted; vF is the bit shifted out. -/
def execShr (x : Reg) (s : State) : Result :=
  aluFlagResult (fun vx _ => lowBit vx) (fun vx _ => shiftRight1 vx) x x s

/-- SUBN (R198): Y minus X; vF is 1 when no borrow occurs. -/
def execSubn (x y : Reg) (s : State) : Result :=
  aluFlagResult (fun vx vy => noBorrow vy vx) (fun vx vy => subMod vy vx) x y s

/-- SHL (R199): `v[X]` alone is shifted; vF is the bit shifted out. -/
def execShl (x : Reg) (s : State) : Result :=
  aluFlagResult (fun vx _ => highBit vx) (fun vx _ => shiftLeft1 vx) x x s

end Sys2Proof.Machine
end

