-- ==== Sys2Proof/Machine/Control.lean ====
section
/-! DEFINITION. Control transfer: RET, JP, CALL, SE, SNE, SER, SNER (spec/41_control_flow.md). -/

namespace Sys2Proof.Machine

/-- RET (R161): pc is the popped address, with no increment afterward (R145). -/
def execRet (s : State) : Result :=
  match s.pop with
  | .error f => raise f
  | .ok (a, t) => .next (t.setPc a)

/-- JP (R162): `pc <- zext_16(nnn)`; the target is not validated. -/
def execJp (nnn : Addr) (s : State) : Result := .next (s.setPc (zext16 nnn))

/-- CALL (R163): push the address after the call, then jump; the target is not validated. -/
def execCall (nnn : Addr) (s : State) : Result :=
  match s.push (s.pc + 2#16) with
  | .error f => raise f
  | .ok t => .next (t.setPc (zext16 nnn))

/-- SE (R164): skip if `v[X]` equals kk. -/
def execSe (x : Reg) (kk : Byte) (s : State) : Result := .next (s.skipIf (s.getV x == kk))

/-- SNE (R165): skip if `v[X]` differs from kk. -/
def execSne (x : Reg) (kk : Byte) (s : State) : Result := .next (s.skipIf (s.getV x != kk))

/-- SER (R166): skip if `v[X]` equals `v[Y]`. -/
def execSer (x y : Reg) (s : State) : Result := .next (s.skipIf (s.getV x == s.getV y))

/-- SNER (R167): skip if `v[X]` differs from `v[Y]`. -/
def execSner (x y : Reg) (s : State) : Result := .next (s.skipIf (s.getV x != s.getV y))

end Sys2Proof.Machine
end

