-- ==== Sys2Proof/Machine/Compositor.lean ====
section
/-! DEFINITION. The display compositor (spec/15_blocks_and_interfaces.md R57): clear, blit and the cells
of the buffer (spec/44_display.md R210, R212, R213). -/

namespace Sys2Proof.Machine

/-- `disp[y][x]` (R29, R213). -/
def Display.cell (d : Display) (x : Fin 64) (y : Fin 32) : Bool := (d[y.val]'(y.isLt)).getLsbD x.val

/-- `disp[y][x] <- disp[y][x] ^ 1`. -/
def Display.toggle (d : Display) (x : Fin 64) (y : Fin 32) : Display :=
  d.set y.val ((d[y.val]'(y.isLt)) ^^^ (1#64 <<< x.val)) y.isLt

/-- The display with every cell 0 (R210). -/
def Display.clear : Display := Vector.replicate 32 0#64

/-- The column of a pixel: `(x0 + col) mod 64` (R212). -/
def pixelColumn (x0 : Byte) (col : Nat) : Fin 64 := Fin.ofNat 64 (x0.toNat + col)

/-- The row of a pixel: `(y0 + r) mod 32` (R212). -/
def pixelRow (y0 : Byte) (r : Nat) : Fin 32 := Fin.ofNat 32 (y0.toNat + r)

/-- One sprite bit: a 1 flips its cell and collides if the cell was lit; a 0 does nothing (R212). -/
def blitPixel (bit : Bool) (x : Fin 64) (y : Fin 32) (acc : Display × Bool) : Display × Bool :=
  if bit then (acc.1.toggle x y, acc.2 || acc.1.cell x y) else acc

/-- Bit `7 - col` of a row byte: column 0 is the most significant bit (R212). -/
def rowBit (row : Byte) (col : Nat) : Bool := row.getLsbD (7 - col)

/-- The columns of one row of the sprite, from `col` for `count` columns. -/
def blitColumns (x0 : Byte) (y : Fin 32) (row : Byte) : Nat → Nat → Display × Bool → Display × Bool
  | _, 0, acc => acc
  | col, count + 1, acc =>
    blitColumns x0 y row (col + 1) count (blitPixel (rowBit row col) (pixelColumn x0 col) y acc)

/-- The rows of the sprite, top to bottom, from row number `r`. -/
def blitRows (x0 y0 : Byte) : Nat → List Byte → Display × Bool → Display × Bool
  | _, [], acc => acc
  | r, row :: rows, acc =>
    blitRows x0 y0 (r + 1) rows (blitColumns x0 (pixelRow y0 r) row 0 8 acc)

/-- `blit(disp, x0, y0, rows)`: the new display and the collision bit (R212). -/
def blit (d : Display) (x0 y0 : Byte) (rows : List Byte) : Display × Bool :=
  blitRows x0 y0 0 rows (d, false)

/-- The sprite bit that falls on a cell, for a sprite of at most 32 rows: the cell lies in the 8
columns from `x0` and the rows from `y0`, both taken around the edges, and the row byte has a 1 there
(R212, R213). The blit is not defined through it. -/
def spriteBit (x0 y0 : Byte) (rows : List Byte) (x : Fin 64) (y : Fin 32) : Bool :=
  let col := (x.val + 256 - x0.toNat) % 64
  let r := (y.val + 256 - y0.toNat) % 32
  decide (col < 8) && decide (r < rows.length) && rowBit (rows.getD r 0x00#8) col

end Sys2Proof.Machine
end

