-- ==== Sys2Proof/Machine/Display.lean ====
section
/-! DEFINITION. Display instructions: CLS, DRW (spec/44_display.md). -/

namespace Sys2Proof.Machine

/-- CLS (R210): every cell 0. -/
def execCls (s : State) : Result := .next (s.setDisp Display.clear).advance

/-- What DRW draws: the display and the collision bit of the blit of n rows from `mem[I]` at the
latched `v[X]`, `v[Y]` (R211). -/
def State.drawn (s : State) (x y : Reg) (n : Nibble) : Display × Bool :=
  blit s.disp (s.getV x) (s.getV y) (s.bytesFrom s.indexAddr n.toNat)

/-- DRW (R211): all rows are checked first; vF is the collision bit; I is unchanged (D13). -/
def execDrw (x y : Reg) (n : Nibble) (s : State) : Result :=
  checkingRange s.indexAddr n.toNat
    (.next ((s.setDisp (s.drawn x y n).1).setV vF (flagByte (s.drawn x y n).2)).advance)

end Sys2Proof.Machine
end

