-- ==== Sys2Proof/Machine/Immediate.lean ====
section
/-! DEFINITION. Immediate and index loads: LD, ADD, LDI (spec/42_immediate_and_index.md). -/

namespace Sys2Proof.Machine

/-- LD (R180): `v[X] <- kk`. -/
def execLd (x : Reg) (kk : Byte) (s : State) : Result := .next (s.setV x kk).advance

/-- ADD (R181): `v[X] <- (vx + kk) mod 256`; the carry is recorded nowhere. -/
def execAdd (x : Reg) (kk : Byte) (s : State) : Result := .next (s.setV x (addMod (s.getV x) kk)).advance

/-- LDI (R182): `I <- zext_16(nnn)`. -/
def execLdi (nnn : Addr) (s : State) : Result := .next (s.setI (zext16 nnn)).advance

end Sys2Proof.Machine
end

