-- ==== Sys2Proof/Machine/Transfer.lean ====
section
/-! DEFINITION. Memory transfer: STR, LDR, in both values of XFER_MODE (spec/45_memory_transfer.md). I is
unchanged in both (R233, the spec's decision D13). -/

namespace Sys2Proof.Machine

/-- STR in mode `single` (R230): `MemWrite(I, 1, vx)`. -/
def storeSingle (x : Reg) (s : State) : Result :=
  match s.memWrite s.indexAddr (s.getV x) with
  | .error f => raise f
  | .ok t => .next t.advance

/-- STR in mode `range` (R230): `v[k]` to `mem[I + k]` for k = 0..X, all addresses checked first. -/
def storeRange (x : Reg) (s : State) : Result :=
  checkingRange s.indexAddr (x.toNat + 1)
    (.next (State.storeBytes (s.regsUpTo x) s.indexAddr s).advance)

/-- STR (R230), as XFER_MODE says (R233, D2). -/
def execStr (x : Reg) (s : State) : Result :=
  match s.config.xferMode with
  | .single => storeSingle x s
  | .range => storeRange x s

/-- LDR in mode `single` (R231): `v[X] <- MemRead(I, 1)`. -/
def loadSingle (x : Reg) (s : State) : Result :=
  match s.memRead s.indexAddr with
  | .error f => raise f
  | .ok b => .next (s.setV x b).advance

/-- LDR in mode `range` (R231): `v[k]` from `mem[I + k]` for k = 0..X, all addresses checked first. -/
def loadRange (x : Reg) (s : State) : Result :=
  checkingRange s.indexAddr (x.toNat + 1)
    (.next (State.setRegs (s.bytesFrom s.indexAddr (x.toNat + 1)) 0 s).advance)

/-- LDR (R231), as XFER_MODE says (R233, D2). -/
def execLdr (x : Reg) (s : State) : Result :=
  match s.config.xferMode with
  | .single => loadSingle x s
  | .range => loadRange x s

end Sys2Proof.Machine
end

