-- ==== Sys2Proof/Decode.lean ====
section
/-! DEFINITION. The decoder of spec/30_encoding.md: fields (R112), dispatch (R114, R116, R117, R119),
unknown opcodes (R121); the encoder; and the opcode table R118 as data. -/

namespace Sys2Proof

/-! ## Fields (R112) -/

/-- `opcodeClass`, bits 15-12. -/
def opcodeClass (w : Word) : Nibble := w.extractLsb' 12 4

/-- `regX`, bits 11-8. -/
def regX (w : Word) : Reg := w.extractLsb' 8 4

/-- `regY`, bits 7-4. -/
def regY (w : Word) : Reg := w.extractLsb' 4 4

/-- `immByte`, bits 7-0. -/
def immByte (w : Word) : Byte := w.extractLsb' 0 8

/-- `immNibble`, bits 3-0. -/
def immNibble (w : Word) : Nibble := w.extractLsb' 0 4

/-- `address`, bits 11-0. -/
def address (w : Word) : Addr := w.extractLsb' 0 12

/-! ## The decoder -/

/-- Why bytes decode to no instruction. -/
inductive DecodeError where
  /-- The word matches no row of R118 (R121). -/
  | unknownOpcode (w : Word)
  /-- Fewer than the two bytes of an instruction word were given (R110). -/
  | truncated (bytes : Nat)
  deriving DecidableEq, Repr

/-- Class 0x0, selected by the bottom nibble alone (R116; bits 11-4 ignored, R115). -/
def decodeClass0 (w : Word) : Except DecodeError Instr :=
  match immNibble w with
  | 0x0#4 => .ok .cls
  | 0xE#4 => .ok .ret
  | _ => .error (.unknownOpcode w)

/-- Class 0x8, selected by the bottom nibble (R117; the shifts ignore regY, R115). -/
def decodeClass8 (w : Word) : Except DecodeError Instr :=
  match immNibble w with
  | 0x0#4 => .ok (.mov (regX w) (regY w))
  | 0x1#4 => .ok (.or (regX w) (regY w))
  | 0x2#4 => .ok (.and (regX w) (regY w))
  | 0x3#4 => .ok (.xor (regX w) (regY w))
  | 0x4#4 => .ok (.addr (regX w) (regY w))
  | 0x5#4 => .ok (.sub (regX w) (regY w))
  | 0x6#4 => .ok (.shr (regX w))
  | 0x7#4 => .ok (.subn (regX w) (regY w))
  | 0xE#4 => .ok (.shl (regX w))
  | _ => .error (.unknownOpcode w)

/-- Class 0xF, selected by the low byte (R119). -/
def decodeClassF (w : Word) : Except DecodeError Instr :=
  match immByte w with
  | 0x55#8 => .ok (.str (regX w))
  | 0x65#8 => .ok (.ldr (regX w))
  | _ => .error (.unknownOpcode w)

/-- The decode function, total on 16-bit words (R120), dispatching on class and sub-field (R114).
Classes 0xB, 0xC and 0xE hold no instruction (R121). -/
def decode (w : Word) : Except DecodeError Instr :=
  match opcodeClass w with
  | 0x0#4 => decodeClass0 w
  | 0x1#4 => .ok (.jp (address w))
  | 0x2#4 => .ok (.call (address w))
  | 0x3#4 => .ok (.se (regX w) (immByte w))
  | 0x4#4 => .ok (.sne (regX w) (immByte w))
  | 0x5#4 => .ok (.ser (regX w) (regY w))
  | 0x6#4 => .ok (.ld (regX w) (immByte w))
  | 0x7#4 => .ok (.add (regX w) (immByte w))
  | 0x8#4 => decodeClass8 w
  | 0x9#4 => .ok (.sner (regX w) (regY w))
  | 0xA#4 => .ok (.ldi (address w))
  | 0xD#4 => .ok (.drw (regX w) (regY w) (immNibble w))
  | 0xF#4 => decodeClassF w
  | _ => .error (.unknownOpcode w)

/-- The instruction word of two bytes, the first in the high-order position (R110). -/
def wordOfBytes (hi lo : Byte) : Word := hi ++ lo

/-- Decoding a byte sequence: the instruction of the first two bytes, and the bytes after them. -/
def decodeBytes : List Byte → Except DecodeError (Instr × List Byte)
  | hi :: lo :: rest => (decode (wordOfBytes hi lo)).map fun i => (i, rest)
  | bytes => .error (.truncated bytes.length)

/-! ## The encoder -/

/-- The word of an instruction. Ignored digits are emitted as 0, except in 0x00E0 for CLS and 0x00EE
for RET (R124). -/
def encode : Instr → Word
  | .cls => 0x00E0#16
  | .ret => 0x00EE#16
  | .jp nnn => 0x1#4 ++ nnn
  | .call nnn => 0x2#4 ++ nnn
  | .se x kk => 0x3#4 ++ x ++ kk
  | .sne x kk => 0x4#4 ++ x ++ kk
  | .ser x y => 0x5#4 ++ x ++ y ++ 0x0#4
  | .ld x kk => 0x6#4 ++ x ++ kk
  | .add x kk => 0x7#4 ++ x ++ kk
  | .mov x y => 0x8#4 ++ x ++ y ++ 0x0#4
  | .or x y => 0x8#4 ++ x ++ y ++ 0x1#4
  | .and x y => 0x8#4 ++ x ++ y ++ 0x2#4
  | .xor x y => 0x8#4 ++ x ++ y ++ 0x3#4
  | .addr x y => 0x8#4 ++ x ++ y ++ 0x4#4
  | .sub x y => 0x8#4 ++ x ++ y ++ 0x5#4
  | .shr x => 0x8#4 ++ x ++ 0x06#8
  | .subn x y => 0x8#4 ++ x ++ y ++ 0x7#4
  | .shl x => 0x8#4 ++ x ++ 0x0E#8
  | .sner x y => 0x9#4 ++ x ++ y ++ 0x0#4
  | .ldi nnn => 0xA#4 ++ nnn
  | .drw x y n => 0xD#4 ++ x ++ y ++ n
  | .str x => 0xF#4 ++ x ++ 0x55#8
  | .ldr x => 0xF#4 ++ x ++ 0x65#8

/-- The two bytes of a word as memory holds them, high byte first (R110). -/
def bytesOfWord (w : Word) : List Byte := [w.extractLsb' 8 8, w.extractLsb' 0 8]

/-! ## The opcode table (R118) -/

/-- A row of R118: a word w selects it if and only if `w &&& mask = pattern`. -/
structure OpcodeRow where
  op : Opcode
  pattern : Word
  mask : Word
  deriving DecidableEq, Repr

/-- A word selects a row. -/
def OpcodeRow.selects (r : OpcodeRow) (w : Word) : Bool := w &&& r.mask == r.pattern

/-- The instruction of a row with its operands taken from the word's fields (R112, R118). -/
def Opcode.instrOf : Opcode → Word → Instr
  | .cls, _ => .cls
  | .ret, _ => .ret
  | .jp, w => .jp (address w)
  | .call, w => .call (address w)
  | .se, w => .se (regX w) (immByte w)
  | .sne, w => .sne (regX w) (immByte w)
  | .ser, w => .ser (regX w) (regY w)
  | .ld, w => .ld (regX w) (immByte w)
  | .add, w => .add (regX w) (immByte w)
  | .mov, w => .mov (regX w) (regY w)
  | .or, w => .or (regX w) (regY w)
  | .and, w => .and (regX w) (regY w)
  | .xor, w => .xor (regX w) (regY w)
  | .addr, w => .addr (regX w) (regY w)
  | .sub, w => .sub (regX w) (regY w)
  | .shr, w => .shr (regX w)
  | .subn, w => .subn (regX w) (regY w)
  | .shl, w => .shl (regX w)
  | .sner, w => .sner (regX w) (regY w)
  | .ldi, w => .ldi (address w)
  | .drw, w => .drw (regX w) (regY w) (immNibble w)
  | .str, w => .str (regX w)
  | .ldr, w => .ldr (regX w)

/-- The bits of a word that hold operands of the instruction (R112, R118). -/
def Opcode.operandBits : Opcode → Word
  | .cls | .ret => 0x0000
  | .jp | .call | .ldi => 0x0FFF
  | .se | .sne | .ld | .add => 0x0FFF
  | .ser | .sner | .mov | .or | .and | .xor | .addr | .sub | .subn => 0x0FF0
  | .shr | .shl | .str | .ldr => 0x0F00
  | .drw => 0x0FFF

/-- The row of R118 an opcode names. -/
def Opcode.row : Opcode → OpcodeRow
  | .cls => ⟨.cls, 0x0000, 0xF00F⟩
  | .ret => ⟨.ret, 0x000E, 0xF00F⟩
  | .jp => ⟨.jp, 0x1000, 0xF000⟩
  | .call => ⟨.call, 0x2000, 0xF000⟩
  | .se => ⟨.se, 0x3000, 0xF000⟩
  | .sne => ⟨.sne, 0x4000, 0xF000⟩
  | .ser => ⟨.ser, 0x5000, 0xF000⟩
  | .ld => ⟨.ld, 0x6000, 0xF000⟩
  | .add => ⟨.add, 0x7000, 0xF000⟩
  | .mov => ⟨.mov, 0x8000, 0xF00F⟩
  | .or => ⟨.or, 0x8001, 0xF00F⟩
  | .and => ⟨.and, 0x8002, 0xF00F⟩
  | .xor => ⟨.xor, 0x8003, 0xF00F⟩
  | .addr => ⟨.addr, 0x8004, 0xF00F⟩
  | .sub => ⟨.sub, 0x8005, 0xF00F⟩
  | .shr => ⟨.shr, 0x8006, 0xF00F⟩
  | .subn => ⟨.subn, 0x8007, 0xF00F⟩
  | .shl => ⟨.shl, 0x800E, 0xF00F⟩
  | .sner => ⟨.sner, 0x9000, 0xF000⟩
  | .ldi => ⟨.ldi, 0xA000, 0xF000⟩
  | .drw => ⟨.drw, 0xD000, 0xF000⟩
  | .str => ⟨.str, 0xF055, 0xF0FF⟩
  | .ldr => ⟨.ldr, 0xF065, 0xF0FF⟩

/-- The opcodes in the order of R118. -/
def allOpcodes : List Opcode :=
  [.cls, .ret, .jp, .call, .se, .sne, .ser, .ld, .add,
   .mov, .or, .and, .xor, .addr, .sub, .shr, .subn, .shl,
   .sner, .ldi, .drw, .str, .ldr]

/-- The 23 rows of R118. -/
def opcodeRows : List OpcodeRow := allOpcodes.map Opcode.row

/-- The decoder R118 describes: the first row a word selects, with the word's fields. -/
def decodeByTable (w : Word) : Except DecodeError Instr :=
  match opcodeRows.find? fun r => r.selects w with
  | some r => .ok (r.op.instrOf w)
  | none => .error (.unknownOpcode w)

/-! ## The host's interface to the decoder -/

/-- The 16-bit word of an instruction whose bits are numbered as spec/opcode_table.json numbers them:
bit 0 is the least significant bit of the one word of the instruction, and bits from `nbits` up are 0. -/
def tableWord (nbits w : Nat) : Word := BitVec.ofNat 16 (w % 2 ^ nbits)

/-- The instruction the decoder reads from those bits, laid out as memory holds them. -/
def decodeTableWord (nbits w : Nat) : Option Instr :=
  match decodeBytes (bytesOfWord (tableWord nbits w)) with
  | .ok (i, _) => some i
  | .error _ => none

end Sys2Proof
end

