-- ==== Sys2Proof/Machine/Fetch.lean ====
section
/-! DEFINITION. The ends of a cycle that belong to no instruction: the fetch
(spec/40_execute_cycle.md R141) and the unknown opcode (R142). -/

namespace Sys2Proof.Machine

/-- The word at pc, first byte high, if both bytes exist: pc0 <= 0xFFE (spec/20_memory.md R81, R86). No
alignment is checked (R83). -/
def State.fetchWord (s : State) : Option Word :=
  if s.pc.toNat ≤ 0xFFE then some (wordOfBytes (s.byteAt s.pc.toNat) (s.byteAt (s.pc.toNat + 1))) else none

/-- A cycle that fetched an unknown opcode: fatal in policy `strict` (spec/60_exceptions.md R242), a
no-op that advances pc in policy `permissive` (R269). -/
def unknownOpcode (w : Word) (s : State) : Result :=
  match s.config.unknownPolicy with
  | .strict => raise (.unknownOpcode w)
  | .permissive => .next s.advance

/-- The report of the next cycle, `unknown_opcode_seen(word, pc0)`, if it makes one: an output, stored
nowhere (R269, D20). -/
def State.cycleReport (s : State) : Option (Word × Word) :=
  match s.fetchWord with
  | none => none
  | some w =>
    match decode w, s.config.unknownPolicy with
    | .error _, .permissive => some (w, s.pc)
    | _, _ => none

/-- `s` with a word stored where the next cycle fetches it, if that place exists. -/
def State.placeWord (s : State) (w : Word) : State :=
  if s.pc.toNat ≤ 0xFFE then State.storeBytes (bytesOfWord w) s.pc.toNat s else s

end Sys2Proof.Machine
end

