-- ==== Sys2Proof/Machine/Step.lean ====
section
/-! DEFINITION. One execute cycle (spec/40_execute_cycle.md R140 to R149) and the host's way to place an
instruction. -/

namespace Sys2Proof.Machine

/-- One execute cycle: fetch, decode, dispatch. The checks come in the order fetch, unknown opcode, the
instruction's own (R148). -/
def step (s : State) : Host.Outcome State Fault Refusal :=
  match s.fetchWord with
  | none => raise (.fetchOutOfBounds s.pc)
  | some w =>
    match decode w with
    | .ok i => exec i s
    | .error _ => unknownOpcode w s

/-- `s` with the instruction whose table bits are `w` stored where the next cycle fetches it (log 6). -/
def State.withFetchWord (s : State) (nbits w : Nat) : State := s.placeWord (tableWord nbits w)

end Sys2Proof.Machine
end

