-- ==== Sys2Proof/Machine/Driver.lean ====
section
/-! DEFINITION. The boundary operations of the block (spec/15_blocks_and_interfaces.md R59 to R64) and
their interleaving (R51), with what the host may still do after a fatal condition
(spec/60_exceptions.md R251). -/

namespace Sys2Proof.Machine

/-- A timer after a tick: one less, clamped at 0 (spec/60_exceptions.md R261). -/
def tickDown (b : Byte) : Byte := if b.toNat > 0 then BitVec.ofNat 8 (b.toNat - 1) else b

/-- `tick()` (R261): it changes DT and ST only and cannot fail. -/
def tick (s : State) : State := s.setTimers (tickDown s.DT) (tickDown s.ST)

/-- `isSoundActive()` (spec/60_exceptions.md R263). -/
def isSoundActive (s : State) : Bool := decide (s.ST.toNat > 0)

/-- `displaySnapshot()` (R63): the 2048 cell values, row by row. -/
def displaySnapshot (s : State) : List (List Bool) :=
  (List.finRange 32).map fun y => (List.finRange 64).map fun x => s.disp.cell x y

/-- `init()` (R59, spec/70_reset_and_hazards.md R280): whatever the state was, the reset state; the
configuration is kept (spec/10_state.md R31). -/
def hostInit (s : State) : State := State.init s.config

/-- `loadProgram(bytes)` (R60, spec/70_reset_and_hazards.md R283): an image that does not fit is
reported and copies nothing (D18). -/
def loadProgram (image : List Byte) (s : State) : Result :=
  if imageFits image then .next (State.storeBytes image loadAddr s)
  else raise (.loadError image.length)

/-- What an operation answers to the driver (R61, spec/60_exceptions.md R240, R269). -/
inductive Answer where
  /-- The operation completed. -/
  | ok
  /-- A cycle completed with the report `unknown_opcode_seen(word, pc0)`. -/
  | okUnknown (word pc : Word)
  /-- A fatal condition; the Machine is as it was (R245). -/
  | fatal (f : Fault)
  /-- The operation is not accepted: a cycle has reported `f` and `init` has not been invoked since
  (R251). The Machine is as it was. -/
  | stuck (f : Fault)
  /-- The model has no meaning for the instruction; given by nothing in this model. -/
  | refused (r : Refusal)
  deriving DecidableEq, Repr

/-- The state and the answer after an outcome: a fatal condition leaves the state as it was
(spec/60_exceptions.md R245, the spec's decision D7). -/
def settle (s : State) (onNext : Answer) : Result → State × Answer
  | .next t => (t, onNext)
  | .fault f => (s, .fatal f)
  | .refused r => (s, .refused r)

/-- `executeCycle()` (R61). -/
def executeCycle (s : State) : State × Answer :=
  settle s (match s.cycleReport with
    | some (w, pc) => .okUnknown w pc
    | none => .ok) (step s)

/-- The operations that act on the Machine (R50, R51). The reads change nothing. -/
inductive Operation where
  | init
  | loadProgram (image : List Byte)
  | executeCycle
  | tick
  deriving DecidableEq, Repr

/-- The effect of one operation on the Machine, run to completion (R51, R59 to R62). -/
def perform : Operation → State → State × Answer
  | .init, s => (hostInit s, .ok)
  | .loadProgram image, s => settle s .ok (loadProgram image s)
  | .executeCycle, s => executeCycle s
  | .tick, s => (tick s, .ok)

/-- A Machine in the hands of a driver. `reported` is no state of the Machine (spec/10_state.md R30): it is
the sticky field R251 lets a model keep, and nothing that a cycle or a tick does depends on it (log 22). -/
structure Session where
  machine : State
  /-- The fatal condition a cycle has reported since the last `init`, if one has. -/
  reported : Option Fault
  deriving DecidableEq, Repr

/-- A session right after `init` in a configuration (spec/70_reset_and_hazards.md R280, R282). -/
def Session.start (c : Config) : Session := { machine := State.init c, reported := none }

/-- The condition a cycle's answer leaves reported: a fatal answer is kept, any other changes nothing. -/
def reportAfter (before : Option Fault) : Answer → Option Fault
  | .fatal f => some f
  | .ok | .okUnknown _ _ | .stuck _ | .refused _ => before

/-- One operation of the driver (R50, R51). After a fatal condition of a cycle the only way out is `init`
(R251): until then a cycle meets the same instruction again, a tick still works, and `loadProgram` is not
accepted, for the host may only stop or `init` (spec/93_implementation_defined.md U16). -/
def operate : Operation → Session → Session × Answer
  | .init, d => ({ machine := (perform .init d.machine).1, reported := none }, (perform .init d.machine).2)
  | .loadProgram image, d =>
    match d.reported with
    | some f => (d, .stuck f)
    | none => ({ d with machine := (perform (.loadProgram image) d.machine).1 },
        (perform (.loadProgram image) d.machine).2)
  | .executeCycle, d =>
    ({ machine := (perform .executeCycle d.machine).1,
       reported := reportAfter d.reported (perform .executeCycle d.machine).2 },
      (perform .executeCycle d.machine).2)
  | .tick, d => ({ d with machine := (perform .tick d.machine).1 }, (perform .tick d.machine).2)

/-- The session after operations in the order the driver invokes them: any order, any ratio (R51). -/
def operateAll : List Operation → Session → Session
  | [], d => d
  | op :: ops, d => operateAll ops (operate op d).1

end Sys2Proof.Machine
end

