-- ==== Sys2Proof/Safety.lean ====
section
/-! DEFINITION. What claims are stated with: the invariant of spec/10_state.md R34, reachable states, when
a cycle completes, and what an instruction leaves unchanged. -/

namespace Sys2Proof.Machine

/-! ## The invariant (R34) -/

/-- R34: I has 12 significant bits, pc is reachable, every stack cell holds a possible return address,
the timers are 0; and the model's own: memory is in canonical form, the configuration is admissible.
That sp is at most 15 and that a display cell is 0 or 1 hold by type. -/
structure MachineInv (s : State) : Prop where
  index : s.I.toNat ≤ 0xFFF
  pc : s.pc.toNat ≤ 0x1002
  stack : ∀ k, (s.stackAt k).toNat ≤ 0x1000
  delayTimer : s.DT = 0x00#8
  soundTimer : s.ST = 0x00#8
  memory : Memory.wf s.config s.mem = true
  config : s.config.wf = true

/-- The states `init` and operations lead to: the model's start states are those of `init` only
(spec/70_reset_and_hazards.md R280, spec/93_implementation_defined.md U11). -/
def Reachable (s : State) : Prop :=
  ∃ c ops, Config.wf c = true ∧ s = (operateAll ops (Session.start c)).machine

/-- The condition a session holds as reported is the one its next cycle raises
(spec/60_exceptions.md R251). -/
def Session.Consistent (d : Session) : Prop := ∀ f, d.reported = some f → step d.machine = .fault f

/-- Two states differ in the timers at most. -/
def SameButTimers (s t : State) : Prop := t = { s with DT := t.DT, ST := t.ST }

/-! ## Completing -/

/-- The condition an instruction's own check asks for (spec/40_execute_cycle.md R148). -/
def Permitted : Instr → State → Prop
  | .ret, s => s.sp ≠ 0#4
  | .call _, s => s.sp ≠ 15#4
  | .drw _ _ n, s => n.toNat = 0 ∨ s.I.toNat + n.toNat - 1 ≤ 0xFFF
  | .str x, s | .ldr x, s =>
    match s.config.xferMode with
    | .single => s.I.toNat ≤ 0xFFF
    | .range => s.I.toNat + x.toNat ≤ 0xFFF
  | _, _ => True

/-- A run of `k` cycles that meets no fatal condition. -/
def SafeRun (k : Nat) (s : State) : Prop := ∃ t, Host.Core.run Sys2Proof.core k s = .next t

/-! ## Frames -/

/-- Every general register outside a list reads as before. -/
def KeepsRegsBut (rs : List Reg) (s t : State) : Prop := ∀ r, r ∉ rs → t.getV r = s.getV r

/-- Every byte of memory reads as before. -/
def KeepsMem (s t : State) : Prop := ∀ a, t.byteAt a = s.byteAt a

/-- Every byte outside the `count` addresses from `base` up reads as before. -/
def KeepsMemOutside (base count : Nat) (s t : State) : Prop :=
  ∀ a, (a < base ∨ base + count ≤ a) → t.byteAt a = s.byteAt a

/-- Every display cell is as before. -/
def KeepsDisplay (s t : State) : Prop := ∀ x y, t.disp.cell x y = s.disp.cell x y

/-- The stack pointer and every stack cell are as before. -/
def KeepsStack (s t : State) : Prop := t.sp = s.sp ∧ ∀ k, t.stackAt k = s.stackAt k

/-- The timers and the configuration are as before. -/
def KeepsTimers (s t : State) : Prop := t.DT = s.DT ∧ t.ST = s.ST ∧ t.config = s.config

/-- Everything but the general registers and pc is as before. -/
def KeepsAllButRegs (s t : State) : Prop :=
  t.I = s.I ∧ KeepsStack s t ∧ KeepsTimers s t ∧ KeepsMem s t ∧ KeepsDisplay s t

/-! ## Shapes of results -/

/-- The instruction completes: `v[x]` is `n`, no other register changes, pc advances by 2, and nothing
else changes. -/
def RegResult (i : Instr) (s : State) (x : Reg) (n : Nat) : Prop :=
  ∃ t, exec i s = .next t ∧ (t.getV x).toNat = n ∧ KeepsRegsBut [x] s t ∧ t.pc = s.pc + 2#16 ∧
    KeepsAllButRegs s t

/-- The instruction completes: `v[x]` is `n`, vF is `flag` unless x is 15, no other register changes,
pc advances by 2, and nothing else changes. -/
def FlagResult (i : Instr) (s : State) (flag : Nat) (x : Reg) (n : Nat) : Prop :=
  ∃ t, exec i s = .next t ∧ (t.getV x).toNat = n ∧ (x ≠ vF → (t.getV vF).toNat = flag) ∧
    KeepsRegsBut [x, vF] s t ∧ t.pc = s.pc + 2#16 ∧ KeepsAllButRegs s t

/-- The instruction completes: pc advances by 4 if the condition holds and by 2 if not, and nothing
else changes. -/
def SkipResult (i : Instr) (s : State) (condition : Prop) : Prop :=
  ∃ t, exec i s = .next t ∧ (condition → t.pc = s.pc + 4#16) ∧ (¬ condition → t.pc = s.pc + 2#16) ∧
    KeepsRegsBut [] s t ∧ KeepsAllButRegs s t

/-- The condition of the four conditional skips (spec/40_execute_cycle.md R144). -/
def SkipTaken : Instr → State → Prop
  | .se x kk, s => s.getV x = kk
  | .sne x kk, s => s.getV x ≠ kk
  | .ser x y, s => s.getV x = s.getV y
  | .sner x y, s => s.getV x ≠ s.getV y
  | _, _ => False

/-- The register an instruction names as its destination regX, and, for LDR in mode `range`, every
register up to it (spec/10_state.md R33). -/
def NamesAsResult : Instr → State → Reg → Prop
  | .ld x _, _, r | .add x _, _, r => r = x
  | .mov x _, _, r | .or x _, _, r | .and x _, _, r | .xor x _, _, r => r = x
  | .addr x _, _, r | .sub x _, _, r | .subn x _, _, r | .shr x, _, r | .shl x, _, r => r = x
  | .ldr x, s, r =>
    match s.config.xferMode with
    | .single => r = x
    | .range => r.toNat ≤ x.toNat
  | _, _, _ => False

/-- The instructions that write vF as a flag (spec/10_state.md R21). -/
def flagWriters : List Opcode := [.addr, .sub, .shr, .subn, .shl, .drw]

end Sys2Proof.Machine
end

