-- ==== Sys2Proof/Certificates/Slice0/Obligations.lean ====
section
/-! DEFINITION. The statements about the model, from the numbered rules of the spec. -/

open Sys2Proof Sys2Proof.Machine

/-! ## Encoding -/

/-- Words written out from spec/95_test_vectors.md (E11, V100 to V120) and the patterns of R118. -/
def Obligations.WordsOfTheTestVectorsDecode : Prop :=
  decode 0x0000#16 = .ok .cls ∧ decode 0x0ABE#16 = .ok .ret ∧ decode 0x1ABC#16 = .ok (.jp 0xABC#12) ∧
  decode 0x512F#16 = .ok (.ser 1#4 2#4) ∧ decode 0x60AB#16 = .ok (.ld 0#4 0xAB#8) ∧
  decode 0x84A6#16 = .ok (.shr 4#4) ∧ decode 0xD12F#16 = .ok (.drw 1#4 2#4 15#4) ∧
  decode 0xF355#16 = .ok (.str 3#4) ∧ decode 0xFF65#16 = .ok (.ldr 15#4) ∧
  decode 0xA00A#16 = .ok (.ldi 0x00A#12) ∧ decode 0x8128#16 = .error (.unknownOpcode 0x8128#16)

/-- R112: the bit ranges of the fields, as numbers, and the two ways they overlap. -/
def Obligations.FieldsAreTheBitRanges : Prop :=
  ∀ w : Word,
    (opcodeClass w).toNat = w.toNat / 4096 ∧ (regX w).toNat = w.toNat / 256 % 16 ∧
    (regY w).toNat = w.toNat / 16 % 16 ∧ (immByte w).toNat = w.toNat % 256 ∧
    (immNibble w).toNat = w.toNat % 16 ∧ (address w).toNat = w.toNat % 4096 ∧
    (immByte w).toNat = (regY w).toNat * 16 + (immNibble w).toNat ∧
    (address w).toNat = (regX w).toNat * 256 + (immByte w).toNat

/-- Decoding the word of any instruction gives that instruction, with every operand at every value. -/
def Obligations.DecodeOfEncodeIsTheInstruction : Prop :=
  ∀ i : Instr, i.wf = true → decode (encode i) = .ok i

/-- R120 with the rows of R118: the dispatch on class and sub-field and the table of match and mask
are the same decoder, on every word. The masks rest on the spec's decision D5. -/
def Obligations.DispatchAgreesWithOpcodeTable : Prop :=
  ∀ w : Word, decode w = decodeByTable w

/-- No word selects two rows of R118 (the spec marks this as derived). -/
def Obligations.OpcodeRowsAreDisjoint : Prop :=
  ∀ w : Word, ∀ r₁ ∈ opcodeRows, ∀ r₂ ∈ opcodeRows,
    r₁.selects w = true → r₂.selects w = true → r₁ = r₂

/-- The word an instruction was decoded from and the word it encodes to differ in ignored bits only:
they agree on the fixed bits of its row and on its operand bits (R115; D5). -/
def Obligations.EncodeOfDecodeDiffersInIgnoredBitsOnly : Prop :=
  ∀ (w : Word) (i : Instr), decode w = .ok i →
    encode i &&& (i.op.row.mask ||| i.op.operandBits) = w &&& (i.op.row.mask ||| i.op.operandBits)

/-! ## The execute cycle -/

/-- R81, R141, R142, R61: a cycle fetches the big-endian word at pc if both its bytes exist, and runs the
instruction it decodes to, the answer to the driver being `ok` when it completes; an unknown word is fatal
in policy `strict` and a reported no-op in policy `permissive`. The policies and the report are the spec's
decisions D1 and D20 (log 15), the untouched state and the information words D7 and D8 (log 9). -/
def Obligations.StepRunsTheDecodedInstruction : Prop :=
  ∀ s : State,
    (0xFFE < s.pc.toNat → step s = .fault (.fetchOutOfBounds s.pc)) ∧
    (s.pc.toNat ≤ 0xFFE → ∃ w : Word, s.fetchWord = some w ∧
      w.toNat = (s.byteAt s.pc.toNat).toNat * 256 + (s.byteAt (s.pc.toNat + 1)).toNat ∧
      (∀ i, decode w = .ok i → step s = exec i s ∧ s.cycleReport = none ∧
        (∀ t, exec i s = .next t → executeCycle s = (t, .ok)) ∧
        (∀ f, exec i s = .fault f → executeCycle s = (s, .fatal f))) ∧
      (∀ e, decode w = .error e → s.config.unknownPolicy = .strict →
        step s = .fault (.unknownOpcode w)) ∧
      (∀ e, decode w = .error e → s.config.unknownPolicy = .permissive →
        step s = .next (s.setPc (s.pc + 2#16)) ∧ s.cycleReport = some (w, s.pc)))

/-- R241, R141: the fetch condition is raised exactly when pc is 0xFFF or above. That pc is its
information word is R240's, the spec's decision D8 (log 9). -/
def Obligations.FetchOutOfBoundsExactly : Prop :=
  ∀ (s : State) (p : Word), step s = .fault (.fetchOutOfBounds p) ↔ 0xFFF ≤ s.pc.toNat ∧ p = s.pc

/-- R269 and R242 as operations (D1, D7, D20): in policy `permissive` an unknown word changes pc only
and is reported; in policy `strict` it changes nothing. -/
def Obligations.UnknownOpcodeUnderBothPolicies : Prop :=
  ∀ (s : State) (w : Word), s.fetchWord = some w → (∀ r ∈ opcodeRows, r.selects w = false) →
    (s.config.unknownPolicy = .permissive →
      executeCycle s = (s.setPc (s.pc + 2#16), .okUnknown w s.pc)) ∧
    (s.config.unknownPolicy = .strict → executeCycle s = (s, .fatal (.unknownOpcode w)))

/-- R147, R148: a cycle completes exactly when the fetch is in bounds and the word is an instruction
whose own check passes, or an unknown word in policy `permissive`; the model refuses nothing. -/
def Obligations.CycleCompletesExactlyWhenPermitted : Prop :=
  ∀ s : State,
    ((∃ t, step s = .next t) ↔ ∃ w, s.fetchWord = some w ∧
      ((∃ i, decode w = .ok i ∧ Permitted i s) ∨
        ((∃ e, decode w = .error e) ∧ s.config.unknownPolicy = .permissive))) ∧
    ∀ r, step s ≠ .refused r

/-- R240: what each fatal condition of a cycle says about the state that raised it. The names and the
information words are the spec's decision D8 (log 9); that of MemoryOutOfBounds is the lowest address
accessed that lies above 0xFFF, 0x1000 for an I of 12 significant bits (R148; log 3 for a larger I). -/
def Obligations.FatalConditionNamesItsCause : Prop :=
  ∀ (s : State) (f : Fault), step s = .fault f →
    match f with
    | .fetchOutOfBounds p => p = s.pc ∧ 0xFFE < s.pc.toNat
    | .unknownOpcode w => s.fetchWord = some w ∧ (∀ r ∈ opcodeRows, r.selects w = false) ∧
        s.config.unknownPolicy = .strict
    | .stackOverflow p => p = s.pc ∧ s.sp = 15#4 ∧
        ∃ w nnn, s.fetchWord = some w ∧ decode w = .ok (.call nnn)
    | .stackUnderflow p => p = s.pc ∧ s.sp = 0#4 ∧ ∃ w, s.fetchWord = some w ∧ decode w = .ok .ret
    | .memoryOutOfBounds a => a = max s.I.toNat 0x1000 ∧ ∃ w i, s.fetchWord = some w ∧ decode w = .ok i ∧
        i.op ∈ [Opcode.drw, Opcode.str, Opcode.ldr] ∧ ¬ Permitted i s
    | .loadError _ => False

/-- R143, R144: pc after every completed cycle of an instruction other than JP, CALL and RET, and of
an unknown word, which completes in policy `permissive` (the spec's decision D1, log 15). SNER's condition
is taken from its name (R167, N16; log 19). -/
def Obligations.ProgramCounterAdvancesByTwoOrSkipsByFour : Prop :=
  ∀ (s t : State) (w : Word), s.fetchWord = some w → step s = .next t →
    (∀ i, decode w = .ok i → i.op ∉ [Opcode.jp, Opcode.call, Opcode.ret] →
      (SkipTaken i s → t.pc = s.pc + 4#16) ∧ (¬ SkipTaken i s → t.pc = s.pc + 2#16)) ∧
    (∀ e, decode w = .error e → t.pc = s.pc + 2#16)

/-- R33, R216, R264: which instructions write the display, the stack, I, memory and the registers; no
instruction writes a timer or the configuration. -/
def Obligations.InstructionsWriteOnlyTheirOwnState : Prop :=
  ∀ (i : Instr) (s t : State), exec i s = .next t →
    (i.op ∉ [Opcode.cls, Opcode.drw] → t.disp = s.disp) ∧
    (i.op ∉ [Opcode.call, Opcode.ret] → t.sp = s.sp ∧ t.stack = s.stack) ∧
    (i.op ≠ Opcode.ldi → t.I = s.I) ∧
    (i.op ≠ Opcode.str → t.mem = s.mem) ∧
    (∀ r, ¬ NamesAsResult i s r → (r = vF → i.op ∉ flagWriters) → t.getV r = s.getV r) ∧
    t.DT = s.DT ∧ t.ST = s.ST ∧ t.config = s.config

/-- R21: vF changes only by the six flag writers or as regX, and the flag written is 0 or 1; with
regX = 15 the result wins (D4), so that case says nothing of the flag. -/
def Obligations.FlagIsWrittenByTheSixAndIsZeroOrOne : Prop :=
  ∀ (i : Instr) (s t : State), exec i s = .next t → ¬ NamesAsResult i s vF →
    (i.op ∉ flagWriters → t.getV vF = s.getV vF) ∧
    (i.op ∈ flagWriters → t.getV vF = 0#8 ∨ t.getV vF = 1#8)

/-- R163, R25: `stack[15]` is never written by any instruction, and is 0 after `init` (D6). -/
def Obligations.LastStackCellIsNeverWritten : Prop :=
  (∀ (i : Instr) (s t : State), exec i s = .next t → t.stackAt 15#4 = s.stackAt 15#4) ∧
  ∀ s, Reachable s → s.stackAt 15#4 = 0x0000#16

/-! ## Immediate and index loads -/

/-- R180: LD. -/
def Obligations.LoadImmediateSetsTheRegister : Prop :=
  (∀ w : Word, w &&& 0xF000#16 = 0x6000#16 → decode w = .ok (.ld (regX w) (immByte w))) ∧
  ∀ (s : State) (x : Reg) (kk : Byte), RegResult (.ld x kk) s x kk.toNat

/-- R181: ADD wraps modulo 256 and writes no flag. -/
def Obligations.AddImmediateWrapsAndWritesNoFlag : Prop :=
  (∀ w : Word, w &&& 0xF000#16 = 0x7000#16 → decode w = .ok (.add (regX w) (immByte w))) ∧
  ∀ (s : State) (x : Reg) (kk : Byte),
    RegResult (.add x kk) s x (((s.getV x).toNat + kk.toNat) % 256)

/-- R182, R22: LDI, for every nnn; bits 15 to 12 of I are 0 after it, and no other instruction writes I.
That DRW, STR and LDR do not is the spec's decision D13 (log 12). -/
def Obligations.LoadIndexSetsIndex : Prop :=
  (∀ w : Word, w &&& 0xF000#16 = 0xA000#16 → decode w = .ok (.ldi (address w))) ∧
  (∀ (s : State) (nnn : Addr), ∃ t, exec (.ldi nnn) s = .next t ∧ t.I.toNat = nnn.toNat ∧
    t.I.toNat < 4096 ∧ t.pc = s.pc + 2#16 ∧ KeepsRegsBut [] s t ∧ KeepsStack s t ∧ KeepsTimers s t ∧
    KeepsMem s t ∧ KeepsDisplay s t) ∧
  ∀ (i : Instr) (s t : State), (∀ nnn, i ≠ .ldi nnn) → exec i s = .next t → t.I = s.I

/-! ## ALU -/

/-- R191 to R194: MOV, OR, AND, XOR, none of which writes a flag. -/
def Obligations.MoveAndLogicWriteTheResultOnly : Prop :=
  (∀ w : Word, (w &&& 0xF00F#16 = 0x8000#16 → decode w = .ok (.mov (regX w) (regY w))) ∧
    (w &&& 0xF00F#16 = 0x8001#16 → decode w = .ok (.or (regX w) (regY w))) ∧
    (w &&& 0xF00F#16 = 0x8002#16 → decode w = .ok (.and (regX w) (regY w))) ∧
    (w &&& 0xF00F#16 = 0x8003#16 → decode w = .ok (.xor (regX w) (regY w)))) ∧
  ∀ (s : State) (x y : Reg),
    RegResult (.mov x y) s x (s.getV y).toNat ∧
    RegResult (.or x y) s x ((s.getV x).toNat ||| (s.getV y).toNat) ∧
    RegResult (.and x y) s x ((s.getV x).toNat &&& (s.getV y).toNat) ∧
    RegResult (.xor x y) s x ((s.getV x).toNat ^^^ (s.getV y).toNat)

/-- R195: ADDR. That the result wins over the flag when X is 15, and that the operand is the old vF
when Y is 15, is the spec's decision D4. -/
def Obligations.AddRegistersSetsCarryThenSum : Prop :=
  (∀ w : Word, w &&& 0xF00F#16 = 0x8004#16 → decode w = .ok (.addr (regX w) (regY w))) ∧
  ∀ (s : State) (x y : Reg),
    FlagResult (.addr x y) s (if (s.getV x).toNat + (s.getV y).toNat > 255 then 1 else 0) x
      (((s.getV x).toNat + (s.getV y).toNat) % 256)

/-- R196, R198: SUB and SUBN. The flag's sense is the spec's decision D3, the write order D4. -/
def Obligations.SubtractsSetNoBorrowThenDifference : Prop :=
  (∀ w : Word, (w &&& 0xF00F#16 = 0x8005#16 → decode w = .ok (.sub (regX w) (regY w))) ∧
    (w &&& 0xF00F#16 = 0x8007#16 → decode w = .ok (.subn (regX w) (regY w)))) ∧
  ∀ (s : State) (x y : Reg),
    FlagResult (.sub x y) s (if (s.getV x).toNat ≥ (s.getV y).toNat then 1 else 0) x
      (if (s.getV x).toNat ≥ (s.getV y).toNat then (s.getV x).toNat - (s.getV y).toNat
        else (s.getV x).toNat + 256 - (s.getV y).toNat) ∧
    FlagResult (.subn x y) s (if (s.getV y).toNat ≥ (s.getV x).toNat then 1 else 0) x
      (if (s.getV y).toNat ≥ (s.getV x).toNat then (s.getV y).toNat - (s.getV x).toNat
        else (s.getV y).toNat + 256 - (s.getV x).toNat)

/-- R197, R199: SHR and SHL shift `v[X]` whatever regY says (D5), and write the bit shifted out, then
the result (D4). -/
def Obligations.ShiftsSetTheBitShiftedOutThenResult : Prop :=
  (∀ w : Word, (w &&& 0xF00F#16 = 0x8006#16 → decode w = .ok (.shr (regX w))) ∧
    (w &&& 0xF00F#16 = 0x800E#16 → decode w = .ok (.shl (regX w)))) ∧
  ∀ (s : State) (x : Reg),
    FlagResult (.shr x) s (if (s.getV x).getLsbD 0 = true then 1 else 0) x ((s.getV x).toNat / 2) ∧
    FlagResult (.shl x) s (if (s.getV x).getLsbD 7 = true then 1 else 0) x
      (2 * (s.getV x).toNat % 256)

/-! ## Control transfer -/

/-- R162: JP, for every nnn. That odd targets and 0xFFF are accepted is the spec's decisions D9 and D10
(log 10). -/
def Obligations.JumpSetsProgramCounter : Prop :=
  (∀ w : Word, w &&& 0xF000#16 = 0x1000#16 → decode w = .ok (.jp (address w))) ∧
  ∀ (s : State) (nnn : Addr), ∃ t, exec (.jp nnn) s = .next t ∧ t.pc.toNat = nnn.toNat ∧
    KeepsRegsBut [] s t ∧ KeepsAllButRegs s t

/-- R163: CALL below the limit pushes the address after it and jumps; at sp = 15 it overflows. The
limit is the spec's decision D6. -/
def Obligations.CallPushesReturnAddressOrOverflows : Prop :=
  (∀ w : Word, w &&& 0xF000#16 = 0x2000#16 → decode w = .ok (.call (address w))) ∧
  ∀ (s : State) (nnn : Addr),
    (s.sp ≠ 15#4 → ∃ t, exec (.call nnn) s = .next t ∧ t.stackAt s.sp = s.pc + 2#16 ∧
      (∀ k, k ≠ s.sp → t.stackAt k = s.stackAt k) ∧ t.sp.toNat = s.sp.toNat + 1 ∧
      t.pc.toNat = nnn.toNat ∧ t.I = s.I ∧ KeepsRegsBut [] s t ∧ KeepsTimers s t ∧ KeepsMem s t ∧
      KeepsDisplay s t) ∧
    (s.sp = 15#4 → exec (.call nnn) s = .fault (.stackOverflow s.pc))

/-- R161: RET with a live entry pops it into pc and keeps every cell (D16); at sp = 0 it underflows.
That the cell below sp is read is the spec's decision D6; the ignored bits are D5. -/
def Obligations.ReturnPopsIntoProgramCounterOrUnderflows : Prop :=
  (∀ w : Word, w &&& 0xF00F#16 = 0x000E#16 → decode w = .ok .ret) ∧
  ∀ s : State,
    (s.sp ≠ 0#4 → ∃ t, exec .ret s = .next t ∧ t.pc = s.stackAt (s.sp - 1#4) ∧
      t.sp.toNat + 1 = s.sp.toNat ∧ (∀ k, t.stackAt k = s.stackAt k) ∧ t.I = s.I ∧
      KeepsRegsBut [] s t ∧ KeepsTimers s t ∧ KeepsMem s t ∧ KeepsDisplay s t) ∧
    (s.sp = 0#4 → exec .ret s = .fault (.stackUnderflow s.pc))

/-- R160 (HX8's call/return property): a call followed by a return lands after the call with sp as
before, and only the stack cell at the old sp may differ. -/
def Obligations.ReturnUndoesCall : Prop :=
  ∀ (s : State) (nnn : Addr), s.sp ≠ 15#4 →
    ∃ t u, exec (.call nnn) s = .next t ∧ exec .ret t = .next u ∧ u.pc = s.pc + 2#16 ∧ u.sp = s.sp ∧
      (∀ k, k ≠ s.sp → u.stackAt k = s.stackAt k) ∧ u.I = s.I ∧ KeepsRegsBut [] s u ∧
      KeepsTimers s u ∧ KeepsMem s u ∧ KeepsDisplay s u

/-- R164, R165: SE and SNE. -/
def Obligations.SkipsComparingImmediate : Prop :=
  (∀ w : Word, (w &&& 0xF000#16 = 0x3000#16 → decode w = .ok (.se (regX w) (immByte w))) ∧
    (w &&& 0xF000#16 = 0x4000#16 → decode w = .ok (.sne (regX w) (immByte w)))) ∧
  ∀ (s : State) (x : Reg) (kk : Byte),
    SkipResult (.se x kk) s ((s.getV x).toNat = kk.toNat) ∧
    SkipResult (.sne x kk) s ((s.getV x).toNat ≠ kk.toNat)

/-- R166, R167: SER and SNER, whatever the low nibble of the word (D5). -/
def Obligations.SkipsComparingRegisters : Prop :=
  (∀ w : Word, (w &&& 0xF000#16 = 0x5000#16 → decode w = .ok (.ser (regX w) (regY w))) ∧
    (w &&& 0xF000#16 = 0x9000#16 → decode w = .ok (.sner (regX w) (regY w)))) ∧
  ∀ (s : State) (x y : Reg),
    SkipResult (.ser x y) s ((s.getV x).toNat = (s.getV y).toNat) ∧
    SkipResult (.sner x y) s ((s.getV x).toNat ≠ (s.getV y).toNat)

/-! ## Display -/

/-- R210: CLS clears every cell and touches no register, whatever bits 11-4 of the word say (D5). -/
def Obligations.ClearScreenUnlightsEveryCell : Prop :=
  (∀ w : Word, w &&& 0xF00F#16 = 0x0000#16 → decode w = .ok .cls) ∧
  ∀ s : State, ∃ t, exec .cls s = .next t ∧ (∀ x y, t.disp.cell x y = false) ∧ t.pc = s.pc + 2#16 ∧
    t.I = s.I ∧ KeepsRegsBut [] s t ∧ KeepsStack s t ∧ KeepsTimers s t ∧ KeepsMem s t

/-- R212: the blit loop is, cell by cell, the display XORed with the sprite bit of the cell, and its
collision bit is set exactly when a lit cell lies under a 1 bit (the spec marks this as derived). -/
def Obligations.BlitIsCellwiseXorOfTheSprite : Prop :=
  ∀ (d : Display) (x0 y0 : Byte) (rows : List Byte), rows.length ≤ 15 →
    (∀ x y, (blit d x0 y0 rows).1.cell x y = (d.cell x y ^^ spriteBit x0 y0 rows x y)) ∧
    ((blit d x0 y0 rows).2 = true ↔ ∃ x y, d.cell x y = true ∧ spriteBit x0 y0 rows x y = true)

/-- R214: the collision bit of a blit, and vF after a completed DRW, is 1 exactly when some cell went
from lit to unlit in this draw, and 0 otherwise. -/
def Obligations.CollisionIsALitCellTurnedUnlit : Prop :=
  (∀ (d : Display) (x0 y0 : Byte) (rows : List Byte), rows.length ≤ 15 →
    ((blit d x0 y0 rows).2 = true ↔
      ∃ x y, d.cell x y = true ∧ (blit d x0 y0 rows).1.cell x y = false)) ∧
  ∀ (s t : State) (x y : Reg) (n : Nibble), exec (.drw x y n) s = .next t →
    ((t.getV vF).toNat = 1 ↔ ∃ px py, s.disp.cell px py = true ∧ t.disp.cell px py = false) ∧
    ((t.getV vF).toNat = 0 ↔ ¬ ∃ px py, s.disp.cell px py = true ∧ t.disp.cell px py = false)

/-- R215: drawing the same sprite twice restores the display; the first draw collides exactly when a
cell under a 1 bit was lit, the second exactly when one was unlit; and clear, draw, clear leaves every
cell unlit. -/
def Obligations.DrawingTwiceRestoresTheDisplay : Prop :=
  (∀ (d : Display) (x0 y0 : Byte) (rows : List Byte), rows.length ≤ 15 →
    (blit (blit d x0 y0 rows).1 x0 y0 rows).1 = d ∧
    ((blit d x0 y0 rows).2 = true ↔ ∃ x y, spriteBit x0 y0 rows x y = true ∧ d.cell x y = true) ∧
    ((blit (blit d x0 y0 rows).1 x0 y0 rows).2 = true ↔
      ∃ x y, spriteBit x0 y0 rows x y = true ∧ d.cell x y = false)) ∧
  ∀ (s t u w : State) (x y : Reg) (n : Nibble),
    exec .cls s = .next t → exec (.drw x y n) t = .next u → exec .cls u = .next w →
      ∀ px py, w.disp.cell px py = false

/-- R211: DRW whose rows exist draws n rows from `mem[I]` at the latched coordinates (D4), sets vF to
the collision bit and changes nothing else, I included (D13); n = 0 draws nothing and clears vF. -/
def Obligations.DrawXorsTheSpriteAndSetsCollision : Prop :=
  (∀ w : Word, w &&& 0xF000#16 = 0xD000#16 → decode w = .ok (.drw (regX w) (regY w) (immNibble w))) ∧
  ∀ (s : State) (x y : Reg) (n : Nibble), n.toNat = 0 ∨ s.I.toNat + n.toNat - 1 ≤ 0xFFF →
    ∃ t, exec (.drw x y n) s = .next t ∧
      (∀ px py, t.disp.cell px py = (s.disp.cell px py ^^
        spriteBit (s.getV x) (s.getV y) (s.bytesFrom s.I.toNat n.toNat) px py)) ∧
      ((t.getV vF).toNat = 1 ↔ ∃ px py, s.disp.cell px py = true ∧
        spriteBit (s.getV x) (s.getV y) (s.bytesFrom s.I.toNat n.toNat) px py = true) ∧
      (t.getV vF).toNat ≤ 1 ∧ t.pc = s.pc + 2#16 ∧ t.I = s.I ∧ KeepsRegsBut [vF] s t ∧
      KeepsStack s t ∧ KeepsTimers s t ∧ KeepsMem s t

/-- R246, R147, R230, R231: DRW, and STR and LDR in mode `range`, raise MemoryOutOfBounds(0x1000) when
an address they would access lies above 0xFFF, for an I of 12 significant bits (`MachineInv.index`). -/
def Obligations.AccessBeyondMemoryIsFatal : Prop :=
  ∀ s : State, s.I.toNat ≤ 0xFFF →
    (∀ x y n, 1 ≤ n.toNat → 0xFFF < s.I.toNat + n.toNat - 1 →
      exec (.drw x y n) s = .fault (.memoryOutOfBounds 0x1000)) ∧
    (∀ x, s.config.xferMode = .range → 0xFFF < s.I.toNat + x.toNat →
      exec (.str x) s = .fault (.memoryOutOfBounds 0x1000) ∧
      exec (.ldr x) s = .fault (.memoryOutOfBounds 0x1000))

/-! ## Memory -/

/-- R84, R85: the two access primitives. A write in bounds changes that one cell, a read gives the byte
last written, and an access above 0xFFF is fatal: MemoryOutOfBounds(a), or FetchOutOfBounds(pc0) when it
is one of the two fetch reads. The names and the information words are the spec's decision D8 (log 9). -/
def Obligations.MemoryPrimitivesReadAndWriteOneByte : Prop :=
  ∀ (s : State) (a : Nat) (b : Byte),
    (a ≤ 0xFFF → ∃ t, s.memWrite a b = .ok t ∧ t.memRead a = .ok b ∧
      (∀ p, p ≤ 0xFFF → p ≠ a → t.memRead p = s.memRead p) ∧ t = s.setMem t.mem) ∧
    (0xFFF < a → s.memWrite a b = .error (.memoryOutOfBounds a) ∧
      s.memRead a = .error (.memoryOutOfBounds a)) ∧
    (0xFFF < s.pc.toNat + 1 → step s = .fault (.fetchOutOfBounds s.pc))

/-- R230: STR, in both modes (D2): the bytes stored are those of `v[X]`, or of `v[0]` to `v[X]`, from
address I up; every other byte, every register and I (D13) stay. -/
def Obligations.StoreWritesRegistersFromIndex : Prop :=
  (∀ w : Word, w &&& 0xF0FF#16 = 0xF055#16 → decode w = .ok (.str (regX w))) ∧
  ∀ (s : State) (x : Reg), s.indexAddr + (s.transferCount x - 1) ≤ 0xFFF →
    ∃ t, exec (.str x) s = .next t ∧
      (s.config.xferMode = .single → t.byteAt s.indexAddr = s.getV x ∧ s.transferCount x = 1) ∧
      (s.config.xferMode = .range → s.transferCount x = x.toNat + 1 ∧
        ∀ r : Reg, r.toNat ≤ x.toNat → t.byteAt (s.indexAddr + r.toNat) = s.getV r) ∧
      KeepsMemOutside s.indexAddr (s.transferCount x) s t ∧ t.pc = s.pc + 2#16 ∧ t.I = s.I ∧
      KeepsRegsBut [] s t ∧ KeepsStack s t ∧ KeepsTimers s t ∧ KeepsDisplay s t

/-- R231: LDR, in both modes (D2): `v[X]` from `mem[I]`, or `v[k]` from `mem[I + k]` for k = 0..X; every
other register, memory and I (D13) stay. -/
def Obligations.LoadReadsRegistersFromIndex : Prop :=
  (∀ w : Word, w &&& 0xF0FF#16 = 0xF065#16 → decode w = .ok (.ldr (regX w))) ∧
  ∀ (s : State) (x : Reg), s.indexAddr + (s.transferCount x - 1) ≤ 0xFFF →
    ∃ t, exec (.ldr x) s = .next t ∧
      (s.config.xferMode = .single → t.getV x = s.byteAt s.indexAddr ∧ KeepsRegsBut [x] s t) ∧
      (s.config.xferMode = .range → ∀ r : Reg, t.getV r =
        if r.toNat ≤ x.toNat then s.byteAt (s.indexAddr + r.toNat) else s.getV r) ∧
      t.pc = s.pc + 2#16 ∧ KeepsAllButRegs s t

/-- R232: a store and a load with I unchanged between them, the registers in the meantime anything:
mode `single` gives the stored value to any register, mode `range` gives every register up to X' <= X
its value back, and a single store read in mode `range` puts `v[X]` where `v[0]` is expected. The modes
are the spec's decision D2 (log 16), that STR leaves I alone is D13 (log 12). -/
def Obligations.StoreThenLoadGivesTheValueBack : Prop :=
  ∀ (s t u : State) (x x' : Reg), exec (.str x) s = .next t → u.I = t.I →
    (∀ a, u.byteAt a = t.byteAt a) →
    (s.config.xferMode = .single → u.config.xferMode = .single →
      ∃ w, exec (.ldr x') u = .next w ∧ w.getV x' = s.getV x) ∧
    (s.config.xferMode = .range → u.config.xferMode = .range → x'.toNat ≤ x.toNat →
      ∃ w, exec (.ldr x') u = .next w ∧ ∀ r : Reg, r.toNat ≤ x'.toNat → w.getV r = s.getV r) ∧
    (s.config.xferMode = .single → u.config.xferMode = .range → u.I.toNat + x'.toNat ≤ 0xFFF →
      ∃ w, exec (.ldr x') u = .next w ∧ w.getV 0#4 = s.getV x)

/-- R94: the fetch after a store reads the stored bytes where they lie, and the old ones elsewhere (the
spec marks this as derived). -/
def Obligations.NextFetchSeesTheStore : Prop :=
  ∀ (s t : State) (x : Reg), exec (.str x) s = .next t → s.pc.toNat ≤ 0xFFC →
    ∃ w : Word, t.fetchWord = some w ∧
      ∀ k, k < 2 → (if k = 0 then w.toNat / 256 else w.toNat % 256) =
        (let a := s.pc.toNat + 2 + k
          if s.I.toNat ≤ a ∧ a < s.I.toNat + s.transferCount x then
            match s.config.xferMode with
            | .single => (s.getV x).toNat
            | .range => (s.getV (BitVec.ofNat 4 (a - s.I.toNat))).toNat
          else (s.byteAt a).toNat)

/-! ## Timers and boundary operations -/

/-- R261: `tick` takes one from each counter that is not 0, clamps at 0, and changes nothing else. -/
def Obligations.TickDecrementsBothTimersClampedAtZero : Prop :=
  ∀ s : State,
    (tick s).DT.toNat = (if s.DT.toNat > 0 then s.DT.toNat - 1 else 0) ∧
    (tick s).ST.toNat = (if s.ST.toNat > 0 then s.ST.toNat - 1 else 0) ∧
    tick s = { s with DT := (tick s).DT, ST := (tick s).ST } ∧ (perform .tick s).2 = .ok ∧
    ∀ d : Session, d.machine = s → d.reported = none →
      operate .tick d = ({ machine := tick s, reported := none }, .ok)

/-- R263: the sound output. -/
def Obligations.SoundIsActiveWhileTheTimerRuns : Prop :=
  ∀ s : State, isSoundActive s = true ↔ 0 < s.ST.toNat

/-- R63: the snapshot holds the 2048 cells, row by row. -/
def Obligations.SnapshotHoldsEveryCell : Prop :=
  ∀ (s : State), (displaySnapshot s).length = 32 ∧ ∀ (x : Fin 64) (y : Fin 32), ∃ row,
    (displaySnapshot s)[y.val]? = some row ∧ row.length = 64 ∧ row[x.val]? = some (s.disp.cell x y)

/-- R51, R264: ticks never change what a cycle does, and a cycle never changes what a tick does (the
spec marks this as derived). -/
def Obligations.TickCommutesWithTheCycle : Prop :=
  ∀ s : State,
    step (tick s) = (match step s with
      | .next t => .next (tick t)
      | .fault f => .fault f
      | .refused r => .refused r) ∧
    (tick s).cycleReport = s.cycleReport

/-- R264: in every state `init` and operations lead to, the timers are 0, a tick does nothing and no
sound is active (the spec marks this as derived). -/
def Obligations.TimersStayZero : Prop :=
  ∀ s, Reachable s → s.DT = 0x00#8 ∧ s.ST = 0x00#8 ∧ tick s = s ∧ isSoundActive s = false

/-- R280, R32, R59: `init` gives the reset table whatever the state was, after a fatal condition too, and
keeps the configuration. The
display's value is the spec's decision D12, the font is open (D11). -/
def Obligations.InitGivesTheResetTable : Prop :=
  ∀ s : State, ∃ t, perform .init s = (t, .ok) ∧
    (∀ d : Session, d.machine = s → operate .init d = ({ machine := t, reported := none }, .ok)) ∧
    (∀ r, t.getV r = 0x00#8) ∧ t.I = 0x0000#16 ∧
    t.pc = 0x0200#16 ∧ t.sp = 0#4 ∧ (∀ k, t.stackAt k = 0x0000#16) ∧ t.DT = 0x00#8 ∧ t.ST = 0x00#8 ∧
    (∀ k b, s.config.fontData[k]? = some b → t.byteAt (s.config.fontBase + k) = b) ∧
    (∀ a, a < s.config.fontBase ∨ s.config.fontBase + s.config.fontData.length ≤ a →
      t.byteAt a = 0x00#8) ∧
    (∀ x y, t.disp.cell x y = false) ∧ t.config = s.config

/-- R60, R283: an image of at most 3584 bytes is copied to 0x200 and up and nothing else changes. The
driver may load until a cycle reports a fatal condition, and again after `init` (R251). -/
def Obligations.LoadProgramCopiesTheImage : Prop :=
  ∀ (s : State) (image : List Byte), image.length ≤ 3584 →
    ∃ t, loadProgram image s = .next t ∧ perform (.loadProgram image) s = (t, .ok) ∧
      (∀ d : Session, d.machine = s → d.reported = none →
        operate (.loadProgram image) d = ({ machine := t, reported := none }, .ok)) ∧
      (∀ k b, image[k]? = some b → t.byteAt (0x200 + k) = b) ∧
      KeepsMemOutside 0x200 image.length s t ∧ t = s.setMem t.mem

/-- R247: an image of more than 3584 bytes is reported with its length and copies nothing, and no
execute cycle raises LoadError. -/
def Obligations.LoadErrorCopiesNothing : Prop :=
  (∀ (s : State) (image : List Byte), 3584 < image.length →
    loadProgram image s = .fault (.loadError image.length) ∧
    perform (.loadProgram image) s = (s, .fatal (.loadError image.length)) ∧
    ∀ d : Session, d.machine = s → d.reported = none →
      operate (.loadProgram image) d = (d, .fatal (.loadError image.length))) ∧
  ∀ (s : State) (n : Nat), step s ≠ .fault (.loadError n)

/-- R282: after `init` and the load of an image of two bytes or more, the first cycle fetches the
image's first two bytes, the first in the high-order position (R81). -/
def Obligations.FirstCycleFetchesTheImage : Prop :=
  ∀ (c : Config) (hi lo : Byte) (rest : List Byte), rest.length ≤ 3582 →
    ∃ t, loadProgram (hi :: lo :: rest) (State.init c) = .next t ∧
      t.pc = 0x0200#16 ∧ ∃ w : Word, t.fetchWord = some w ∧ w.toNat = hi.toNat * 256 + lo.toNat

/-- The model's own (log 6): `withFetchWord` stores exactly the word the next cycle fetches. -/
def Obligations.WithFetchWordPlacesTheNextWord : Prop :=
  ∀ (s : State) (w : Word), s.pc.toNat ≤ 0xFFE →
    (s.withFetchWord 16 w.toNat).fetchWord = some w ∧
    KeepsMemOutside s.pc.toNat 2 s (s.withFetchWord 16 w.toNat) ∧
    s.withFetchWord 16 w.toNat = s.setMem (s.withFetchWord 16 w.toNat).mem

/-- R245, R251: a cycle that reports a fatal condition leaves the state as it was (D7), and after any
operations but `init` the Machine differs in the timers at most, every cycle reports the same condition
with the same information word, ticks still work (D19), and a load is not accepted (log 22). `init` is the
way out: it gives the start of a session. The spec marks the repetition as derived. -/
def Obligations.FatalConditionRepeatsUntilInit : Prop :=
  ∀ (d : Session) (f : Fault), (operate .executeCycle d).2 = .fatal f →
    (operate .executeCycle d).1 = { machine := d.machine, reported := some f } ∧
    ∀ ops : List Operation, Operation.init ∉ ops →
      let e := operateAll (.executeCycle :: ops) d
      SameButTimers d.machine e.machine ∧ e.reported = some f ∧
      (operate .executeCycle e).2 = .fatal f ∧ step e.machine = .fault f ∧
      operate .tick e = ({ machine := tick e.machine, reported := some f }, .ok) ∧
      (∀ image, operate (.loadProgram image) e = (e, .stuck f)) ∧
      operate .init e = (Session.start d.machine.config, .ok)

/-- R289: from an even pc with only zero bytes up to the end of memory, the cycles are clears up to
0x1000 and then the fetch is fatal; registers and memory stay (the spec's decision D22). -/
def Obligations.RunningOffTheEndClearsThenFaults : Prop :=
  ∀ s : State, s.pc.toNat ≤ 0x1000 → s.pc.toNat % 2 = 0 →
    (∀ a, s.pc.toNat ≤ a → a ≤ 0xFFF → s.byteAt a = 0x00#8) →
    ∃ t, Host.Core.run Sys2Proof.core ((0x1000 - s.pc.toNat) / 2) s = .next t ∧
      t.pc = 0x1000#16 ∧ KeepsRegsBut [] s t ∧ KeepsMem s t ∧ t.I = s.I ∧ KeepsStack s t ∧
      (s.pc.toNat < 0x1000 → ∀ x y, t.disp.cell x y = false) ∧
      step t = .fault (.fetchOutOfBounds 0x1000#16)

/-! ## Invariants (R34) -/

/-- `init` meets the invariant in every admissible configuration, and so does reset. -/
def Obligations.InitMeetsTheInvariant : Prop :=
  (∀ c : Config, c.wf = true → MachineInv (State.init c)) ∧ MachineInv State.reset

/-- R34: every completed cycle keeps the invariant, from every state that meets it. -/
def Obligations.EveryCycleKeepsTheInvariant : Prop :=
  ∀ s t : State, MachineInv s → step s = .next t → MachineInv t

/-- R34, R251: every operation of the driver keeps the invariant, whatever it answers, and keeps the
reported condition the one the next cycle raises. -/
def Obligations.EveryOperationKeepsTheInvariant : Prop :=
  (∀ (op : Operation) (s : State), MachineInv s → MachineInv (perform op s).1) ∧
  ∀ (op : Operation) (d : Session),
    (MachineInv d.machine → MachineInv (operate op d).1.machine) ∧
    (d.Consistent → (operate op d).1.Consistent)

/-- R34, R31, R251: in every state `init` and operations lead to, in any interleaving, the invariant holds,
the configuration is the one the Machine was created with, and a reported condition is the one the next
cycle raises. -/
def Obligations.ReachableStatesMeetTheInvariant : Prop :=
  (∀ s, Reachable s → MachineInv s) ∧
  (∀ (ops : List Operation) (d : Session), (operateAll ops d).machine.config = d.machine.config) ∧
  ∀ (c : Config) (ops : List Operation), (operateAll ops (Session.start c)).Consistent
end

