-- ==== Sys2Proof/Laws/State.lean ====
section
/-! SUPPORT. One lemma per field of State per update, so that no proof unfolds a record update. -/

namespace Sys2Proof.Machine

variable (s : State)

/-! ## setPc -/

@[simp] theorem State.setPc_v (a : Word) : (s.setPc a).v = s.v := rfl
@[simp] theorem State.setPc_I (a : Word) : (s.setPc a).I = s.I := rfl
@[simp] theorem State.setPc_pc (a : Word) : (s.setPc a).pc = a := rfl
@[simp] theorem State.setPc_sp (a : Word) : (s.setPc a).sp = s.sp := rfl
@[simp] theorem State.setPc_stack (a : Word) : (s.setPc a).stack = s.stack := rfl
@[simp] theorem State.setPc_DT (a : Word) : (s.setPc a).DT = s.DT := rfl
@[simp] theorem State.setPc_ST (a : Word) : (s.setPc a).ST = s.ST := rfl
@[simp] theorem State.setPc_mem (a : Word) : (s.setPc a).mem = s.mem := rfl
@[simp] theorem State.setPc_disp (a : Word) : (s.setPc a).disp = s.disp := rfl
@[simp] theorem State.setPc_config (a : Word) : (s.setPc a).config = s.config := rfl
@[simp] theorem State.getV_setPc (a : Word) (q : Reg) : (s.setPc a).getV q = s.getV q := rfl
@[simp] theorem State.stackAt_setPc (a : Word) (q : BitVec 4) : (s.setPc a).stackAt q = s.stackAt q := rfl
@[simp] theorem State.byteAt_setPc (a : Word) (q : Nat) : (s.setPc a).byteAt q = s.byteAt q := rfl

/-! ## setI -/

@[simp] theorem State.setI_v (a : Word) : (s.setI a).v = s.v := rfl
@[simp] theorem State.setI_I (a : Word) : (s.setI a).I = a := rfl
@[simp] theorem State.setI_pc (a : Word) : (s.setI a).pc = s.pc := rfl
@[simp] theorem State.setI_sp (a : Word) : (s.setI a).sp = s.sp := rfl
@[simp] theorem State.setI_stack (a : Word) : (s.setI a).stack = s.stack := rfl
@[simp] theorem State.setI_DT (a : Word) : (s.setI a).DT = s.DT := rfl
@[simp] theorem State.setI_ST (a : Word) : (s.setI a).ST = s.ST := rfl
@[simp] theorem State.setI_mem (a : Word) : (s.setI a).mem = s.mem := rfl
@[simp] theorem State.setI_disp (a : Word) : (s.setI a).disp = s.disp := rfl
@[simp] theorem State.setI_config (a : Word) : (s.setI a).config = s.config := rfl
@[simp] theorem State.getV_setI (a : Word) (q : Reg) : (s.setI a).getV q = s.getV q := rfl
@[simp] theorem State.stackAt_setI (a : Word) (q : BitVec 4) : (s.setI a).stackAt q = s.stackAt q := rfl
@[simp] theorem State.byteAt_setI (a : Word) (q : Nat) : (s.setI a).byteAt q = s.byteAt q := rfl

/-! ## setSp -/

@[simp] theorem State.setSp_v (k : BitVec 4) : (s.setSp k).v = s.v := rfl
@[simp] theorem State.setSp_I (k : BitVec 4) : (s.setSp k).I = s.I := rfl
@[simp] theorem State.setSp_pc (k : BitVec 4) : (s.setSp k).pc = s.pc := rfl
@[simp] theorem State.setSp_sp (k : BitVec 4) : (s.setSp k).sp = k := rfl
@[simp] theorem State.setSp_stack (k : BitVec 4) : (s.setSp k).stack = s.stack := rfl
@[simp] theorem State.setSp_DT (k : BitVec 4) : (s.setSp k).DT = s.DT := rfl
@[simp] theorem State.setSp_ST (k : BitVec 4) : (s.setSp k).ST = s.ST := rfl
@[simp] theorem State.setSp_mem (k : BitVec 4) : (s.setSp k).mem = s.mem := rfl
@[simp] theorem State.setSp_disp (k : BitVec 4) : (s.setSp k).disp = s.disp := rfl
@[simp] theorem State.setSp_config (k : BitVec 4) : (s.setSp k).config = s.config := rfl
@[simp] theorem State.getV_setSp (k : BitVec 4) (q : Reg) : (s.setSp k).getV q = s.getV q := rfl
@[simp] theorem State.stackAt_setSp (k : BitVec 4) (q : BitVec 4) : (s.setSp k).stackAt q = s.stackAt q := rfl
@[simp] theorem State.byteAt_setSp (k : BitVec 4) (q : Nat) : (s.setSp k).byteAt q = s.byteAt q := rfl

/-! ## setStack -/

@[simp] theorem State.setStack_v (st : Vector Word 16) : (s.setStack st).v = s.v := rfl
@[simp] theorem State.setStack_I (st : Vector Word 16) : (s.setStack st).I = s.I := rfl
@[simp] theorem State.setStack_pc (st : Vector Word 16) : (s.setStack st).pc = s.pc := rfl
@[simp] theorem State.setStack_sp (st : Vector Word 16) : (s.setStack st).sp = s.sp := rfl
@[simp] theorem State.setStack_stack (st : Vector Word 16) : (s.setStack st).stack = st := rfl
@[simp] theorem State.setStack_DT (st : Vector Word 16) : (s.setStack st).DT = s.DT := rfl
@[simp] theorem State.setStack_ST (st : Vector Word 16) : (s.setStack st).ST = s.ST := rfl
@[simp] theorem State.setStack_mem (st : Vector Word 16) : (s.setStack st).mem = s.mem := rfl
@[simp] theorem State.setStack_disp (st : Vector Word 16) : (s.setStack st).disp = s.disp := rfl
@[simp] theorem State.setStack_config (st : Vector Word 16) : (s.setStack st).config = s.config := rfl
@[simp] theorem State.getV_setStack (st : Vector Word 16) (q : Reg) : (s.setStack st).getV q = s.getV q := rfl
@[simp] theorem State.byteAt_setStack (st : Vector Word 16) (q : Nat) : (s.setStack st).byteAt q = s.byteAt q := rfl

/-! ## setMem -/

@[simp] theorem State.setMem_v (m : Memory) : (s.setMem m).v = s.v := rfl
@[simp] theorem State.setMem_I (m : Memory) : (s.setMem m).I = s.I := rfl
@[simp] theorem State.setMem_pc (m : Memory) : (s.setMem m).pc = s.pc := rfl
@[simp] theorem State.setMem_sp (m : Memory) : (s.setMem m).sp = s.sp := rfl
@[simp] theorem State.setMem_stack (m : Memory) : (s.setMem m).stack = s.stack := rfl
@[simp] theorem State.setMem_DT (m : Memory) : (s.setMem m).DT = s.DT := rfl
@[simp] theorem State.setMem_ST (m : Memory) : (s.setMem m).ST = s.ST := rfl
@[simp] theorem State.setMem_mem (m : Memory) : (s.setMem m).mem = m := rfl
@[simp] theorem State.setMem_disp (m : Memory) : (s.setMem m).disp = s.disp := rfl
@[simp] theorem State.setMem_config (m : Memory) : (s.setMem m).config = s.config := rfl
@[simp] theorem State.getV_setMem (m : Memory) (q : Reg) : (s.setMem m).getV q = s.getV q := rfl
@[simp] theorem State.stackAt_setMem (m : Memory) (q : BitVec 4) : (s.setMem m).stackAt q = s.stackAt q := rfl

/-! ## setDisp -/

@[simp] theorem State.setDisp_v (d : Display) : (s.setDisp d).v = s.v := rfl
@[simp] theorem State.setDisp_I (d : Display) : (s.setDisp d).I = s.I := rfl
@[simp] theorem State.setDisp_pc (d : Display) : (s.setDisp d).pc = s.pc := rfl
@[simp] theorem State.setDisp_sp (d : Display) : (s.setDisp d).sp = s.sp := rfl
@[simp] theorem State.setDisp_stack (d : Display) : (s.setDisp d).stack = s.stack := rfl
@[simp] theorem State.setDisp_DT (d : Display) : (s.setDisp d).DT = s.DT := rfl
@[simp] theorem State.setDisp_ST (d : Display) : (s.setDisp d).ST = s.ST := rfl
@[simp] theorem State.setDisp_mem (d : Display) : (s.setDisp d).mem = s.mem := rfl
@[simp] theorem State.setDisp_disp (d : Display) : (s.setDisp d).disp = d := rfl
@[simp] theorem State.setDisp_config (d : Display) : (s.setDisp d).config = s.config := rfl
@[simp] theorem State.getV_setDisp (d : Display) (q : Reg) : (s.setDisp d).getV q = s.getV q := rfl
@[simp] theorem State.stackAt_setDisp (d : Display) (q : BitVec 4) : (s.setDisp d).stackAt q = s.stackAt q := rfl
@[simp] theorem State.byteAt_setDisp (d : Display) (q : Nat) : (s.setDisp d).byteAt q = s.byteAt q := rfl

/-! ## setTimers -/

@[simp] theorem State.setTimers_v (dt st : Byte) : (s.setTimers dt st).v = s.v := rfl
@[simp] theorem State.setTimers_I (dt st : Byte) : (s.setTimers dt st).I = s.I := rfl
@[simp] theorem State.setTimers_pc (dt st : Byte) : (s.setTimers dt st).pc = s.pc := rfl
@[simp] theorem State.setTimers_sp (dt st : Byte) : (s.setTimers dt st).sp = s.sp := rfl
@[simp] theorem State.setTimers_stack (dt st : Byte) : (s.setTimers dt st).stack = s.stack := rfl
@[simp] theorem State.setTimers_DT (dt st : Byte) : (s.setTimers dt st).DT = dt := rfl
@[simp] theorem State.setTimers_ST (dt st : Byte) : (s.setTimers dt st).ST = st := rfl
@[simp] theorem State.setTimers_mem (dt st : Byte) : (s.setTimers dt st).mem = s.mem := rfl
@[simp] theorem State.setTimers_disp (dt st : Byte) : (s.setTimers dt st).disp = s.disp := rfl
@[simp] theorem State.setTimers_config (dt st : Byte) : (s.setTimers dt st).config = s.config := rfl
@[simp] theorem State.getV_setTimers (dt st : Byte) (q : Reg) : (s.setTimers dt st).getV q = s.getV q := rfl
@[simp] theorem State.stackAt_setTimers (dt st : Byte) (q : BitVec 4) : (s.setTimers dt st).stackAt q = s.stackAt q := rfl
@[simp] theorem State.byteAt_setTimers (dt st : Byte) (q : Nat) : (s.setTimers dt st).byteAt q = s.byteAt q := rfl

/-! ## setV -/

@[simp] theorem State.setV_v (r : Reg) (b : Byte) : (s.setV r b).v = s.v.set r.toNat b r.isLt := rfl
@[simp] theorem State.setV_I (r : Reg) (b : Byte) : (s.setV r b).I = s.I := rfl
@[simp] theorem State.setV_pc (r : Reg) (b : Byte) : (s.setV r b).pc = s.pc := rfl
@[simp] theorem State.setV_sp (r : Reg) (b : Byte) : (s.setV r b).sp = s.sp := rfl
@[simp] theorem State.setV_stack (r : Reg) (b : Byte) : (s.setV r b).stack = s.stack := rfl
@[simp] theorem State.setV_DT (r : Reg) (b : Byte) : (s.setV r b).DT = s.DT := rfl
@[simp] theorem State.setV_ST (r : Reg) (b : Byte) : (s.setV r b).ST = s.ST := rfl
@[simp] theorem State.setV_mem (r : Reg) (b : Byte) : (s.setV r b).mem = s.mem := rfl
@[simp] theorem State.setV_disp (r : Reg) (b : Byte) : (s.setV r b).disp = s.disp := rfl
@[simp] theorem State.setV_config (r : Reg) (b : Byte) : (s.setV r b).config = s.config := rfl
@[simp] theorem State.stackAt_setV (r : Reg) (b : Byte) (q : BitVec 4) : (s.setV r b).stackAt q = s.stackAt q := rfl
@[simp] theorem State.byteAt_setV (r : Reg) (b : Byte) (q : Nat) : (s.setV r b).byteAt q = s.byteAt q := rfl

/-! ## storeByte -/

@[simp] theorem State.storeByte_v (a : Nat) (b : Byte) : (s.storeByte a b).v = s.v := rfl
@[simp] theorem State.storeByte_I (a : Nat) (b : Byte) : (s.storeByte a b).I = s.I := rfl
@[simp] theorem State.storeByte_pc (a : Nat) (b : Byte) : (s.storeByte a b).pc = s.pc := rfl
@[simp] theorem State.storeByte_sp (a : Nat) (b : Byte) : (s.storeByte a b).sp = s.sp := rfl
@[simp] theorem State.storeByte_stack (a : Nat) (b : Byte) : (s.storeByte a b).stack = s.stack := rfl
@[simp] theorem State.storeByte_DT (a : Nat) (b : Byte) : (s.storeByte a b).DT = s.DT := rfl
@[simp] theorem State.storeByte_ST (a : Nat) (b : Byte) : (s.storeByte a b).ST = s.ST := rfl
@[simp] theorem State.storeByte_mem (a : Nat) (b : Byte) : (s.storeByte a b).mem = Memory.write s.config s.mem a b := rfl
@[simp] theorem State.storeByte_disp (a : Nat) (b : Byte) : (s.storeByte a b).disp = s.disp := rfl
@[simp] theorem State.storeByte_config (a : Nat) (b : Byte) : (s.storeByte a b).config = s.config := rfl
@[simp] theorem State.getV_storeByte (a : Nat) (b : Byte) (q : Reg) : (s.storeByte a b).getV q = s.getV q := rfl
@[simp] theorem State.stackAt_storeByte (a : Nat) (b : Byte) (q : BitVec 4) : (s.storeByte a b).stackAt q = s.stackAt q := rfl

/-! ## The two ways pc moves on -/

@[simp] theorem State.advance_v : s.advance.v = s.v := rfl
@[simp] theorem State.advance_I : s.advance.I = s.I := rfl
@[simp] theorem State.advance_pc : s.advance.pc = s.pc + 2#16 := rfl
@[simp] theorem State.advance_sp : s.advance.sp = s.sp := rfl
@[simp] theorem State.advance_stack : s.advance.stack = s.stack := rfl
@[simp] theorem State.advance_DT : s.advance.DT = s.DT := rfl
@[simp] theorem State.advance_ST : s.advance.ST = s.ST := rfl
@[simp] theorem State.advance_mem : s.advance.mem = s.mem := rfl
@[simp] theorem State.advance_disp : s.advance.disp = s.disp := rfl
@[simp] theorem State.advance_config : s.advance.config = s.config := rfl
@[simp] theorem State.getV_advance (q : Reg) : s.advance.getV q = s.getV q := rfl
@[simp] theorem State.stackAt_advance (q : BitVec 4) : s.advance.stackAt q = s.stackAt q := rfl
@[simp] theorem State.byteAt_advance (q : Nat) : s.advance.byteAt q = s.byteAt q := rfl

@[simp] theorem State.skipIf_v (c : Bool) : (s.skipIf c).v = s.v := rfl
@[simp] theorem State.skipIf_I (c : Bool) : (s.skipIf c).I = s.I := rfl
@[simp] theorem State.skipIf_pc (c : Bool) : (s.skipIf c).pc = if c then s.pc + 4#16 else s.pc + 2#16 := rfl
@[simp] theorem State.skipIf_sp (c : Bool) : (s.skipIf c).sp = s.sp := rfl
@[simp] theorem State.skipIf_stack (c : Bool) : (s.skipIf c).stack = s.stack := rfl
@[simp] theorem State.skipIf_DT (c : Bool) : (s.skipIf c).DT = s.DT := rfl
@[simp] theorem State.skipIf_ST (c : Bool) : (s.skipIf c).ST = s.ST := rfl
@[simp] theorem State.skipIf_mem (c : Bool) : (s.skipIf c).mem = s.mem := rfl
@[simp] theorem State.skipIf_disp (c : Bool) : (s.skipIf c).disp = s.disp := rfl
@[simp] theorem State.skipIf_config (c : Bool) : (s.skipIf c).config = s.config := rfl
@[simp] theorem State.getV_skipIf (c : Bool) (q : Reg) : (s.skipIf c).getV q = s.getV q := rfl
@[simp] theorem State.stackAt_skipIf (c : Bool) (q : BitVec 4) : (s.skipIf c).stackAt q = s.stackAt q := rfl
@[simp] theorem State.byteAt_skipIf (c : Bool) (q : Nat) : (s.skipIf c).byteAt q = s.byteAt q := rfl

/-! ## init -/

@[simp] theorem State.init_v (c : Config) : (State.init c).v = Vector.replicate 16 0x00#8 := rfl
@[simp] theorem State.init_I (c : Config) : (State.init c).I = 0x0000#16 := rfl
@[simp] theorem State.init_pc (c : Config) : (State.init c).pc = 0x0200#16 := rfl
@[simp] theorem State.init_sp (c : Config) : (State.init c).sp = 0#4 := rfl
@[simp] theorem State.init_stack (c : Config) : (State.init c).stack = Vector.replicate 16 0x0000#16 := rfl
@[simp] theorem State.init_DT (c : Config) : (State.init c).DT = 0x00#8 := rfl
@[simp] theorem State.init_ST (c : Config) : (State.init c).ST = 0x00#8 := rfl
@[simp] theorem State.init_mem (c : Config) : (State.init c).mem = [] := rfl
@[simp] theorem State.init_disp (c : Config) : (State.init c).disp = Vector.replicate 32 0#64 := rfl
@[simp] theorem State.init_config (c : Config) : (State.init c).config = c := rfl

end Sys2Proof.Machine
end

