-- ==== Sys2Proof/Laws/Compositor.lean ====
section
/-! SUPPORT. The cells of the display after each operation of the compositor. -/

namespace Sys2Proof.Machine

@[simp] theorem Display.cell_clear (x : Fin 64) (y : Fin 32) : Display.clear.cell x y = false := by
  simp [Display.cell, Display.clear]

/-- Toggling a cell flips that cell and leaves every other alone. -/
theorem Display.cell_toggle (d : Display) (x : Fin 64) (y : Fin 32) (px : Fin 64) (py : Fin 32) :
    (d.toggle x y).cell px py = (d.cell px py ^^ decide (px = x ∧ py = y)) := by
  unfold Display.cell Display.toggle
  by_cases hy : py = y
  · subst hy
    have hx : (px = x) ↔ px.val = x.val := Fin.ext_iff
    simp only [Vector.getElem_set_self, BitVec.getLsbD_xor, and_true]
    congr 1
    by_cases h : px = x
    · subst h
      simp
    · have hne : px.val ≠ x.val := fun e => h (hx.mpr e)
      by_cases hlt : px.val < x.val
      · simp [h, hlt]
      · have hpos : ¬ px.val - x.val = 0 := by omega
        simp [h, hpos]
  · have hne : y.val ≠ py.val := fun e => hy (Fin.ext e.symm)
    simp [hne, hy]

/-- Two displays with the same cells are the same display. -/
theorem Display.ext_cell {d e : Display} (h : ∀ x y, d.cell x y = e.cell x y) : d = e := by
  apply Vector.ext
  intro y hy
  apply BitVec.eq_of_getLsbD_eq
  intro x hx
  exact h ⟨x, hx⟩ ⟨y, hy⟩

/-- One sprite bit, cell by cell: it flips its cell if it is 1. -/
theorem blitPixel_cell (bit : Bool) (x : Fin 64) (y : Fin 32) (acc : Display × Bool)
    (px : Fin 64) (py : Fin 32) :
    (blitPixel bit x y acc).1.cell px py = (acc.1.cell px py ^^ (bit && decide (px = x ∧ py = y))) := by
  cases bit <;> simp [blitPixel, Display.cell_toggle]

/-- One sprite bit, collision: it adds a collision if it is 1 and its cell was lit. -/
theorem blitPixel_collision (bit : Bool) (x : Fin 64) (y : Fin 32) (acc : Display × Bool) :
    (blitPixel bit x y acc).2 = (acc.2 || (bit && acc.1.cell x y)) := by
  cases bit <;> simp [blitPixel]

end Sys2Proof.Machine
end

