-- ==== Sys2Proof/Laws/Driver.lean ====
section
/-! SUPPORT. What each operation of the driver does to a session, said once. -/

namespace Sys2Proof.Machine

@[simp] theorem operate_init (d : Session) :
    operate .init d = (Session.start d.machine.config, .ok) := rfl

@[simp] theorem operate_tick (d : Session) :
    operate .tick d = ({ d with machine := tick d.machine }, .ok) := rfl

theorem operate_executeCycle (d : Session) :
    operate .executeCycle d =
      (⟨(executeCycle d.machine).1, reportAfter d.reported (executeCycle d.machine).2⟩,
        (executeCycle d.machine).2) := rfl

/-- After a reported condition a load is not accepted. -/
theorem operate_load_of_reported {d : Session} {f : Fault} (h : d.reported = some f) (image : List Byte) :
    operate (.loadProgram image) d = (d, .stuck f) := by
  simp only [operate, h]

/-- With nothing reported a load has its effect. -/
theorem operate_load_of_none {d : Session} (h : d.reported = none) (image : List Byte) :
    operate (.loadProgram image) d =
      ({ d with machine := (perform (.loadProgram image) d.machine).1 },
        (perform (.loadProgram image) d.machine).2) := by
  simp only [operate, h]

/-- An operation of the driver has its effect on the Machine, or is a load that is not accepted and
changes nothing. -/
theorem operate_cases (op : Operation) (d : Session) :
    ((operate op d).1.machine = (perform op d.machine).1 ∧ (operate op d).2 = (perform op d.machine).2) ∨
      ∃ image f, op = .loadProgram image ∧ d.reported = some f ∧ operate op d = (d, .stuck f) := by
  cases op with
  | init => exact .inl ⟨rfl, rfl⟩
  | executeCycle => exact .inl ⟨rfl, rfl⟩
  | tick => exact .inl ⟨rfl, rfl⟩
  | loadProgram image =>
    cases h : d.reported with
    | none => exact .inl (by rw [operate_load_of_none h]; exact ⟨rfl, rfl⟩)
    | some f => exact .inr ⟨image, f, rfl, rfl, operate_load_of_reported h image⟩

/-- A cycle that faults answers the fault and leaves the Machine as it was. -/
theorem executeCycle_of_fault {s : State} {f : Fault} (h : step s = .fault f) :
    executeCycle s = (s, .fatal f) := by
  simp only [executeCycle, h, settle]

/-- A cycle answers a fatal condition only by faulting. -/
theorem step_of_executeCycle_fatal {s : State} {f : Fault} (h : (executeCycle s).2 = .fatal f) :
    step s = .fault f := by
  unfold executeCycle settle at h
  cases hs : step s <;> rw [hs] at h
  · cases hr : s.cycleReport <;> rw [hr] at h <;> cases h
  · cases h
    rfl
  · cases h

end Sys2Proof.Machine
end

