-- ==== Sys2Proof/Laws/Memory.lean ====
section
/-! SUPPORT. What each memory operation does, said once: read after write, the bytes a store leaves alone,
and that every operation keeps the canonical form. -/

namespace Sys2Proof.Machine

/-! ## Cells -/

theorem Memory.find_erase (m : Memory) (a p : Nat) :
    Memory.find (Memory.erase m a) p = if p = a then none else Memory.find m p := by
  induction m with
  | nil => simp [Memory.erase, Memory.find]
  | cons cell m ih =>
    have step : Memory.erase (cell :: m) a =
        if cell.1 = a then Memory.erase m a else cell :: Memory.erase m a := by
      by_cases h : cell.1 = a <;> simp [Memory.erase, h]
    rw [step]
    by_cases h : cell.1 = a
    · rw [if_pos h, ih]
      by_cases hp : p = a
      · simp [hp]
      · have hne : ¬ cell.1 = p := fun e => hp (e.symm.trans h)
        simp [Memory.find, hp, hne]
    · rw [if_neg h]
      by_cases hc : cell.1 = p
      · have hp : ¬ p = a := fun e => h (hc.trans e)
        simp [Memory.find, hc, hp]
      · simp only [Memory.find, hc, if_false]
        exact ih

theorem Memory.find_insert (m : Memory) (a : Nat) (b : Byte) (p : Nat) (h : Memory.find m a = none) :
    Memory.find (Memory.insert m a b) p = if p = a then some b else Memory.find m p := by
  induction m with
  | nil =>
    by_cases hp : p = a
    · simp [Memory.insert, Memory.find, hp]
    · simp [Memory.insert, Memory.find, hp, Ne.symm hp]
  | cons cell m ih =>
    have hne : ¬ cell.1 = a := by
      intro e
      simp [Memory.find, e] at h
    have hm : Memory.find m a = none := by simpa [Memory.find, hne] using h
    unfold Memory.insert
    by_cases hlt : a < cell.1
    · rw [if_pos hlt]
      by_cases hp : p = a
      · simp [Memory.find, hp]
      · have : ¬ a = p := fun e => hp e.symm
        simp [Memory.find, hp, this]
    · rw [if_neg hlt]
      by_cases hc : cell.1 = p
      · have hp : ¬ p = a := fun e => hne (hc.trans e)
        simp [Memory.find, hc, hp]
      · simp only [Memory.find, hc, if_false]
        exact ih hm

/-- Reading any address after a store: the byte stored at its address, the old byte elsewhere. -/
theorem Memory.read_write (c : Config) (m : Memory) (a : Nat) (b : Byte) (p : Nat) :
    Memory.read c (Memory.write c m a b) p = if p = a then b else Memory.read c m p := by
  unfold Memory.write Memory.read
  by_cases hb : b = Memory.unlisted c a
  · rw [if_pos hb, Memory.find_erase]
    by_cases hp : p = a
    · simp [hp, hb]
    · simp [hp]
  · rw [if_neg hb, Memory.find_insert _ _ _ _ (by simp [Memory.find_erase]), Memory.find_erase]
    by_cases hp : p = a <;> simp [hp]

/-! ## The canonical form -/

theorem Memory.sortedFrom_mono {lo lo' : Nat} (m : Memory) (h : lo' ≤ lo)
    (hs : Memory.sortedFrom lo m = true) : Memory.sortedFrom lo' m = true := by
  cases m with
  | nil => rfl
  | cons cell m =>
    simp only [Memory.sortedFrom, Bool.and_eq_true, decide_eq_true_eq] at hs ⊢
    exact ⟨h.trans hs.1, hs.2⟩

theorem Memory.sortedFrom_erase (m : Memory) (a lo : Nat) (hs : Memory.sortedFrom lo m = true) :
    Memory.sortedFrom lo (Memory.erase m a) = true := by
  induction m generalizing lo with
  | nil => rfl
  | cons cell m ih =>
    simp only [Memory.sortedFrom, Bool.and_eq_true, decide_eq_true_eq] at hs
    have rest := ih (cell.1 + 1) hs.2
    by_cases h : cell.1 = a
    · have : Memory.erase (cell :: m) a = Memory.erase m a := by simp [Memory.erase, h]
      rw [this]
      exact Memory.sortedFrom_mono _ (by omega) rest
    · have : Memory.erase (cell :: m) a = cell :: Memory.erase m a := by simp [Memory.erase, h]
      rw [this]
      simp only [Memory.sortedFrom, Bool.and_eq_true, decide_eq_true_eq]
      exact ⟨hs.1, rest⟩

theorem Memory.sortedFrom_insert (m : Memory) (a : Nat) (b : Byte) (lo : Nat) (hlo : lo ≤ a)
    (hs : Memory.sortedFrom lo m = true) (hfree : ∀ cell ∈ m, cell.1 ≠ a) :
    Memory.sortedFrom lo (Memory.insert m a b) = true := by
  induction m generalizing lo with
  | nil => simp [Memory.insert, Memory.sortedFrom, hlo]
  | cons cell m ih =>
    simp only [Memory.sortedFrom, Bool.and_eq_true, decide_eq_true_eq] at hs
    have hne : cell.1 ≠ a := hfree cell (by simp)
    unfold Memory.insert
    by_cases hlt : a < cell.1
    · rw [if_pos hlt]
      simp only [Memory.sortedFrom, Bool.and_eq_true, decide_eq_true_eq]
      exact ⟨hlo, by omega, hs.2⟩
    · rw [if_neg hlt]
      simp only [Memory.sortedFrom, Bool.and_eq_true, decide_eq_true_eq]
      exact ⟨hs.1, ih (cell.1 + 1) (by omega) hs.2 fun c hc => hfree c (by simp [hc])⟩

theorem Memory.mem_erase {m : Memory} {a : Nat} {cell : Host.Cell} :
    cell ∈ Memory.erase m a ↔ cell ∈ m ∧ cell.1 ≠ a := by
  simp [Memory.erase]

theorem Memory.mem_insert {m : Memory} {a : Nat} {b : Byte} {cell : Host.Cell} :
    cell ∈ Memory.insert m a b ↔ cell = (a, b) ∨ cell ∈ m := by
  induction m with
  | nil => simp [Memory.insert]
  | cons c m ih =>
    unfold Memory.insert
    by_cases h : a < c.1
    · simp [h]
    · simp only [h, if_false, List.mem_cons, ih]
      tauto

/-- A store to an address that exists keeps the canonical form. -/
theorem Memory.wf_write (c : Config) (m : Memory) (a : Nat) (b : Byte) (ha : a < memSize)
    (hm : Memory.wf c m = true) : Memory.wf c (Memory.write c m a b) = true := by
  simp only [Memory.wf, Bool.and_eq_true, List.all_eq_true, decide_eq_true_eq] at hm ⊢
  have hs := Memory.sortedFrom_erase m a 0 hm.1
  unfold Memory.write
  by_cases hb : b = Memory.unlisted c a
  · rw [if_pos hb]
    exact ⟨hs, fun cell hc => hm.2 cell (Memory.mem_erase.mp hc).1⟩
  · rw [if_neg hb]
    refine ⟨Memory.sortedFrom_insert _ a b 0 (by omega) hs fun cell hc => (Memory.mem_erase.mp hc).2, ?_⟩
    intro cell hc
    rcases Memory.mem_insert.mp hc with rfl | hc
    · exact ⟨ha, hb⟩
    · exact hm.2 cell (Memory.mem_erase.mp hc).1

/-! ## Memory of the Machine -/

theorem State.byteAt_storeByte (s : State) (a : Nat) (b : Byte) (p : Nat) :
    (s.storeByte a b).byteAt p = if p = a then b else s.byteAt p :=
  Memory.read_write s.config s.mem a b p

/-- What `storeBytes` leaves alone, and that memory only is written. -/
theorem State.storeBytes_eq_setMem (bytes : List Byte) (a : Nat) (s : State) :
    State.storeBytes bytes a s = s.setMem (State.storeBytes bytes a s).mem := by
  induction bytes generalizing a s with
  | nil => rfl
  | cons b bytes ih =>
    rw [State.storeBytes, ih]
    rfl

/-- Reading any address after a store of several bytes. -/
theorem State.byteAt_storeBytes (bytes : List Byte) (a : Nat) (s : State) (p : Nat) :
    (State.storeBytes bytes a s).byteAt p =
      if a ≤ p then (bytes[p - a]?).getD (s.byteAt p) else s.byteAt p := by
  induction bytes generalizing a s with
  | nil => simp [State.storeBytes]
  | cons b bytes ih =>
    rw [State.storeBytes, ih, State.byteAt_storeByte]
    by_cases hlt : p < a
    · have h1 : ¬ a + 1 ≤ p := by omega
      have h2 : ¬ p = a := by omega
      have h3 : ¬ a ≤ p := by omega
      simp [h1, h2, h3]
    · by_cases hp : p = a
      · have h1 : ¬ a + 1 ≤ a := by omega
        simp [hp]
      · have h1 : a + 1 ≤ p := by omega
        have h3 : a ≤ p := by omega
        have h4 : p - a = (p - (a + 1)) + 1 := by omega
        simp [h1, h3, hp, h4]

/-- A store of several bytes, all inside memory, keeps the canonical form. -/
theorem State.wf_storeBytes (bytes : List Byte) (a : Nat) (s : State)
    (ha : bytes = [] ∨ a + bytes.length ≤ memSize) (hm : Memory.wf s.config s.mem = true) :
    Memory.wf s.config (State.storeBytes bytes a s).mem = true := by
  induction bytes generalizing a s with
  | nil => exact hm
  | cons b bytes ih =>
    have hlen : a + (bytes.length + 1) ≤ memSize := by simpa using ha
    have hw := Memory.wf_write s.config s.mem a b (by omega) hm
    exact ih (a + 1) (s.storeByte a b) (.inr (by omega)) hw

@[simp] theorem State.length_bytesFrom (s : State) (a n : Nat) : (s.bytesFrom a n).length = n := by
  simp [State.bytesFrom]

theorem State.getElem?_bytesFrom (s : State) (a n k : Nat) :
    (s.bytesFrom a n)[k]? = if k < n then some (s.byteAt (a + k)) else none := by
  by_cases h : k < n <;> simp [State.bytesFrom, h]

theorem State.memRead_eq (s : State) (a : Nat) (h : a ≤ 0xFFF) : s.memRead a = .ok (s.byteAt a) :=
  if_pos h

theorem State.memWrite_eq (s : State) (a : Nat) (b : Byte) (h : a ≤ 0xFFF) :
    s.memWrite a b = .ok (s.storeByte a b) :=
  if_pos h

/-- The bounds check passes exactly when there is no access or the last address exists. -/
theorem firstOutOfBounds_eq_none {base count : Nat} :
    firstOutOfBounds base count = none ↔ count = 0 ∨ base + count - 1 ≤ 0xFFF := by
  unfold firstOutOfBounds
  split <;> simp <;> omega

/-- The address the bounds check reports. -/
theorem firstOutOfBounds_eq_some {base count a : Nat} :
    firstOutOfBounds base count = some a ↔
      count ≠ 0 ∧ 0xFFF < base + count - 1 ∧ a = max base 0x1000 := by
  unfold firstOutOfBounds
  split
  · simp only [Option.some.injEq]
    omega
  · simp only [reduceCtorEq, false_iff]
    omega

/-- What a checked access answers: either the range exists and it goes on, or it raises. -/
theorem checkingRange_cases (base count : Nat) (goOn : Result) :
    (firstOutOfBounds base count = none ∧ checkingRange base count goOn = goOn) ∨
      ∃ a, firstOutOfBounds base count = some a ∧
        checkingRange base count goOn = .fault (.memoryOutOfBounds a) := by
  unfold checkingRange
  cases firstOutOfBounds base count with
  | none => exact .inl ⟨rfl, rfl⟩
  | some a => exact .inr ⟨a, rfl, rfl⟩

end Sys2Proof.Machine
end

