-- ==== Sys2Proof/Laws/Registers.lean ====
section
/-! SUPPORT. Registers, the call stack and the fetch: what each operation does, said once. -/

namespace Sys2Proof.Machine

theorem State.getV_setV (s : State) (r : Reg) (b : Byte) (q : Reg) :
    (s.setV r b).getV q = if q = r then b else s.getV q := by
  unfold State.getV State.setV
  by_cases h : q = r
  · subst h
    simp
  · have hne : r.toNat ≠ q.toNat := fun e => h (BitVec.eq_of_toNat_eq e.symm)
    simp [hne, h]

@[simp] theorem State.getV_setV_self (s : State) (r : Reg) (b : Byte) : (s.setV r b).getV r = b := by
  simp [State.getV_setV]

theorem State.getV_setFlagThen (s : State) (flag : Bool) (x : Reg) (result : Byte) (q : Reg) :
    (s.setFlagThen flag x result).getV q =
      if q = x then result else if q = vF then flagByte flag else s.getV q := by
  simp only [State.setFlagThen, State.getV_setV]

@[simp] theorem State.latch_eq (s : State) (x y : Reg) : s.latch x y = (s.getV x, s.getV y) := rfl

/-- Writing several registers writes nothing else. -/
theorem State.setRegs_eq_withV (bytes : List Byte) (k : Nat) (s : State) :
    ∃ v, State.setRegs bytes k s = { s with v := v } := by
  induction bytes generalizing k s with
  | nil => exact ⟨s.v, rfl⟩
  | cons b bytes ih =>
    obtain ⟨v, hv⟩ := ih (k + 1) (s.setV (BitVec.ofNat 4 k) b)
    exact ⟨v, hv⟩

/-- Reading any register after several were written, from `k` up and inside the register file. -/
theorem State.getV_setRegs (bytes : List Byte) (k : Nat) (s : State) (q : Reg)
    (h : k + bytes.length ≤ 16) :
    (State.setRegs bytes k s).getV q =
      if k ≤ q.toNat then (bytes[q.toNat - k]?).getD (s.getV q) else s.getV q := by
  induction bytes generalizing k s with
  | nil => simp [State.setRegs]
  | cons b bytes ih =>
    have hlen : k + (bytes.length + 1) ≤ 16 := by simpa using h
    rw [State.setRegs, ih (k + 1) _ (by omega), State.getV_setV]
    have hk : (BitVec.ofNat 4 k).toNat = k := by simp [Nat.mod_eq_of_lt (show k < 16 by omega)]
    have heq : q = BitVec.ofNat 4 k ↔ q.toNat = k := by
      constructor
      · intro e
        rw [e, hk]
      · intro e
        apply BitVec.eq_of_toNat_eq
        rw [hk, e]
    by_cases hlt : q.toNat < k
    · have h1 : ¬ k + 1 ≤ q.toNat := by omega
      have h2 : ¬ k ≤ q.toNat := by omega
      have h3 : ¬ q = BitVec.ofNat 4 k := fun e => by
        have := heq.mp e
        omega
      simp [h1, h2, h3]
    · by_cases hq : q.toNat = k
      · simp [heq.mpr hq, hk]
      · have h1 : k + 1 ≤ q.toNat := by omega
        have h2 : k ≤ q.toNat := by omega
        have h3 : ¬ q = BitVec.ofNat 4 k := fun e => hq (heq.mp e)
        have h4 : q.toNat - k = (q.toNat - (k + 1)) + 1 := by omega
        simp [h1, h2, h3, h4]

@[simp] theorem State.length_regsUpTo (s : State) (x : Reg) : (s.regsUpTo x).length = x.toNat + 1 := by
  simp [State.regsUpTo]

theorem State.getElem?_regsUpTo (s : State) (x : Reg) (k : Nat) :
    (s.regsUpTo x)[k]? = if k < x.toNat + 1 then some (s.getV (BitVec.ofNat 4 k)) else none := by
  by_cases h : k < x.toNat + 1 <;> simp [State.regsUpTo, h]

/-! ## The call stack -/

/-- What a push does: overflow at 15, else the cell at sp is written and sp rises. -/
theorem State.push_cases (s : State) (a : Word) :
    (s.sp = 15#4 ∧ s.push a = .error (.stackOverflow s.pc)) ∨
      (s.sp ≠ 15#4 ∧ s.push a =
        .ok ((s.setStack (s.stack.set s.sp.toNat a s.sp.isLt)).setSp (s.sp + 1#4))) := by
  unfold State.push
  by_cases h : s.sp = 15#4
  · exact .inl ⟨h, if_pos h⟩
  · exact .inr ⟨h, if_neg h⟩

/-- What a pop does: underflow at 0, else the cell below sp and sp one less. -/
theorem State.pop_cases (s : State) :
    (s.sp = 0#4 ∧ s.pop = .error (.stackUnderflow s.pc)) ∨
      (s.sp ≠ 0#4 ∧ s.pop = .ok (s.stackAt (s.sp - 1#4), s.setSp (s.sp - 1#4))) := by
  unfold State.pop
  by_cases h : s.sp = 0#4
  · exact .inl ⟨h, if_pos h⟩
  · exact .inr ⟨h, if_neg h⟩

/-- Reading any stack cell after one was written. -/
theorem State.stackAt_setStack (s : State) (k : BitVec 4) (a : Word) (q : BitVec 4) :
    (s.setStack (s.stack.set k.toNat a k.isLt)).stackAt q = if q = k then a else s.stackAt q := by
  unfold State.stackAt State.setStack
  by_cases h : q = k
  · subst h
    simp
  · have hne : k.toNat ≠ q.toNat := fun e => h (BitVec.eq_of_toNat_eq e.symm)
    simp [hne, h]

/-! ## The cycle -/

/-- What a completed cycle can be: the decoded instruction's, or the no-op of policy `permissive`. -/
theorem step_next_cases {s t : State} (h : step s = .next t) :
    ∃ w, s.fetchWord = some w ∧
      ((∃ i, decode w = .ok i ∧ exec i s = .next t) ∨
        (∃ e, decode w = .error e ∧ s.config.unknownPolicy = .permissive ∧ t = s.advance)) := by
  unfold step at h
  split at h
  · cases h
  · rename_i w hw
    refine ⟨w, hw, ?_⟩
    split at h
    · rename_i i hi
      exact .inl ⟨i, hi, h⟩
    · rename_i e he
      refine .inr ⟨e, he, ?_⟩
      unfold unknownOpcode at h
      split at h
      · cases h
      · rename_i hp
        cases h
        exact ⟨hp, rfl⟩

/-- The fetch succeeds exactly when pc is at most 0xFFE. -/
theorem State.fetchWord_eq_some {s : State} {w : Word} :
    s.fetchWord = some w ↔ s.pc.toNat ≤ 0xFFE ∧
      w = wordOfBytes (s.byteAt s.pc.toNat) (s.byteAt (s.pc.toNat + 1)) := by
  unfold State.fetchWord
  split <;> simp_all [eq_comm]

end Sys2Proof.Machine
end

