-- ==== Sys2Proof/Laws/Exec.lean ====
section
/-! SUPPORT. One lemma per instruction that checks something: what it answers when its check passes, so
that no proof unfolds the check. -/

namespace Sys2Proof.Machine

theorem execCall_eq {s : State} (nnn : Addr) (h : s.sp ≠ 15#4) :
    exec (.call nnn) s = .next (((s.setStack (s.stack.set s.sp.toNat (s.pc + 2#16) s.sp.isLt)).setSp
      (s.sp + 1#4)).setPc (zext16 nnn)) := by
  show execCall nnn s = _
  unfold execCall
  rcases State.push_cases s (s.pc + 2#16) with ⟨h', _⟩ | ⟨_, e⟩
  · exact absurd h' h
  · rw [e]

theorem execRet_eq {s : State} (h : s.sp ≠ 0#4) :
    exec .ret s = .next ((s.setSp (s.sp - 1#4)).setPc (s.stackAt (s.sp - 1#4))) := by
  show execRet s = _
  unfold execRet
  rcases State.pop_cases s with ⟨h', _⟩ | ⟨_, e⟩
  · exact absurd h' h
  · rw [e]

theorem execDrw_eq {s : State} (x y : Reg) (n : Nibble)
    (h : n.toNat = 0 ∨ s.I.toNat + n.toNat - 1 ≤ 0xFFF) :
    exec (.drw x y n) s =
      .next ((s.setDisp (s.drawn x y n).1).setV vF (flagByte (s.drawn x y n).2)).advance := by
  show checkingRange s.I.toNat n.toNat _ = _
  rw [checkingRange, firstOutOfBounds_eq_none.mpr h]

theorem execStr_single {s : State} (x : Reg) (hm : s.config.xferMode = .single) (h : s.I.toNat ≤ 0xFFF) :
    exec (.str x) s = .next (s.storeByte s.I.toNat (s.getV x)).advance := by
  show execStr x s = _
  simp only [execStr, hm, storeSingle, State.indexAddr]
  rw [State.memWrite_eq _ _ _ h]

theorem execStr_range {s : State} (x : Reg) (hm : s.config.xferMode = .range)
    (h : s.I.toNat + x.toNat ≤ 0xFFF) :
    exec (.str x) s = .next (State.storeBytes (s.regsUpTo x) s.I.toNat s).advance := by
  show execStr x s = _
  simp only [execStr, hm, storeRange, State.indexAddr]
  rw [checkingRange, firstOutOfBounds_eq_none.mpr (by omega)]

theorem execLdr_single {s : State} (x : Reg) (hm : s.config.xferMode = .single) (h : s.I.toNat ≤ 0xFFF) :
    exec (.ldr x) s = .next (s.setV x (s.byteAt s.I.toNat)).advance := by
  show execLdr x s = _
  simp only [execLdr, hm, loadSingle, State.indexAddr]
  rw [State.memRead_eq _ _ h]

theorem execLdr_range {s : State} (x : Reg) (hm : s.config.xferMode = .range)
    (h : s.I.toNat + x.toNat ≤ 0xFFF) :
    exec (.ldr x) s = .next (State.setRegs (s.bytesFrom s.I.toNat (x.toNat + 1)) 0 s).advance := by
  show execLdr x s = _
  simp only [execLdr, hm, loadRange, State.indexAddr]
  rw [checkingRange, firstOutOfBounds_eq_none.mpr (by omega)]

/-- The byte at any address after a store of the registers `v[0]` to `v[x]`. -/
theorem State.byteAt_storeRegs (s : State) (x : Reg) (base a : Nat) :
    (State.storeBytes (s.regsUpTo x) base s).byteAt a =
      if base ≤ a ∧ a < base + (x.toNat + 1) then s.getV (BitVec.ofNat 4 (a - base)) else s.byteAt a := by
  rw [State.byteAt_storeBytes, State.getElem?_regsUpTo]
  by_cases h : base ≤ a
  · by_cases h2 : a < base + (x.toNat + 1)
    · simp [h, h2, show a - base < x.toNat + 1 by omega]
    · simp [h, h2, show ¬ a - base < x.toNat + 1 by omega]
  · simp [h]

/-- Any register after a load of `v[0]` to `v[x]` from `base` up. -/
theorem State.getV_loadRegs (s : State) (x r : Reg) (base : Nat) :
    (State.setRegs (s.bytesFrom base (x.toNat + 1)) 0 s).getV r =
      if r.toNat ≤ x.toNat then s.byteAt (base + r.toNat) else s.getV r := by
  rw [State.getV_setRegs _ _ _ _ (by simp; omega), State.getElem?_bytesFrom]
  by_cases h : r.toNat ≤ x.toNat
  · simp [h, show r.toNat < x.toNat + 1 by omega]
  · simp [h, show ¬ r.toNat < x.toNat + 1 by omega]

end Sys2Proof.Machine
end

