-- ==== Sys2Proof/Laws/PerInstr.lean ====
section
/-! SUPPORT. Facts about every instruction as syntax, one lemma per constructor. -/

namespace Sys2Proof.Laws.RowSelects

/-- The word of an instruction selects that instruction's own row of the opcode table, and every
operand is in range. -/
def Statement (i : Instr) : Prop := i.op.row.selects (encode i) = true ∧ i.wf = true

theorem fits {w : Nat} (a : BitVec w) {n : Nat} (h : 2 ^ w = n) : decide (a.toNat < n) = true := by
  subst h
  exact decide_eq_true a.isLt

/-! A word made of fields, masked by fields that are all ones or all zeros. -/

theorem selects_addr (c : Nibble) (nnn : Addr) : (c ++ nnn : Word) &&& 0xF000#16 = c ++ 0x000#12 := by
  rw [show (0xF000#16 : Word) = 0xF#4 ++ 0x000#12 from rfl, BitVec.and_append]
  simp only [BitVec.and_zero, show (0xF#4 : Nibble) = BitVec.allOnes 4 from rfl, BitVec.and_allOnes]

theorem selects_imm (c x : Nibble) (kk : Byte) :
    (c ++ x ++ kk : Word) &&& 0xF000#16 = c ++ 0x0#4 ++ 0x00#8 := by
  rw [show (0xF000#16 : Word) = 0xF#4 ++ 0x0#4 ++ 0x00#8 from rfl, BitVec.and_append, BitVec.and_append]
  simp only [BitVec.and_zero, show (0xF#4 : Nibble) = BitVec.allOnes 4 from rfl, BitVec.and_allOnes]

theorem selects_byte (c x : Nibble) (kk : Byte) :
    (c ++ x ++ kk : Word) &&& 0xF0FF#16 = c ++ 0x0#4 ++ kk := by
  rw [show (0xF0FF#16 : Word) = 0xF#4 ++ 0x0#4 ++ 0xFF#8 from rfl, BitVec.and_append, BitVec.and_append]
  simp only [BitVec.and_zero, show (0xF#4 : Nibble) = BitVec.allOnes 4 from rfl,
    show (0xFF#8 : Byte) = BitVec.allOnes 8 from rfl, BitVec.and_allOnes]

theorem selects_class (c x y n : Nibble) :
    (c ++ x ++ y ++ n : Word) &&& 0xF000#16 = c ++ 0x0#4 ++ 0x0#4 ++ 0x0#4 := by
  rw [show (0xF000#16 : Word) = 0xF#4 ++ 0x0#4 ++ 0x0#4 ++ 0x0#4 from rfl, BitVec.and_append,
    BitVec.and_append, BitVec.and_append]
  simp only [BitVec.and_zero, show (0xF#4 : Nibble) = BitVec.allOnes 4 from rfl, BitVec.and_allOnes]

theorem selects_nibble (c x y n : Nibble) :
    (c ++ x ++ y ++ n : Word) &&& 0xF00F#16 = c ++ 0x0#4 ++ 0x0#4 ++ n := by
  rw [show (0xF00F#16 : Word) = 0xF#4 ++ 0x0#4 ++ 0x0#4 ++ 0xF#4 from rfl, BitVec.and_append,
    BitVec.and_append, BitVec.and_append]
  simp only [BitVec.and_zero, show (0xF#4 : Nibble) = BitVec.allOnes 4 from rfl, BitVec.and_allOnes]

theorem of_eq {i : Instr} (h : encode i &&& i.op.row.mask = i.op.row.pattern) :
    i.op.row.selects (encode i) = true :=
  beq_iff_eq.mpr h

theorem cls : Statement .cls := ⟨by decide, by decide⟩

theorem ret : Statement .ret := ⟨by decide, by decide⟩

theorem jp (nnn : Addr) : Statement (.jp nnn) :=
  ⟨of_eq (selects_addr 1#4 nnn), by simp [Instr.wf, Instr.operandRanges, rangesHold, fits]⟩

theorem call (nnn : Addr) : Statement (.call nnn) :=
  ⟨of_eq (selects_addr 2#4 nnn), by simp [Instr.wf, Instr.operandRanges, rangesHold, fits]⟩

theorem se (x : Reg) (kk : Byte) : Statement (.se x kk) :=
  ⟨of_eq (selects_imm 3#4 x kk), by simp [Instr.wf, Instr.operandRanges, rangesHold, fits]⟩

theorem sne (x : Reg) (kk : Byte) : Statement (.sne x kk) :=
  ⟨of_eq (selects_imm 4#4 x kk), by simp [Instr.wf, Instr.operandRanges, rangesHold, fits]⟩

theorem ser (x y : Reg) : Statement (.ser x y) :=
  ⟨of_eq (selects_class 5#4 x y 0#4), by simp [Instr.wf, Instr.operandRanges, rangesHold, fits]⟩

theorem ld (x : Reg) (kk : Byte) : Statement (.ld x kk) :=
  ⟨of_eq (selects_imm 6#4 x kk), by simp [Instr.wf, Instr.operandRanges, rangesHold, fits]⟩

theorem add (x : Reg) (kk : Byte) : Statement (.add x kk) :=
  ⟨of_eq (selects_imm 7#4 x kk), by simp [Instr.wf, Instr.operandRanges, rangesHold, fits]⟩

theorem mov (x y : Reg) : Statement (.mov x y) :=
  ⟨of_eq (selects_nibble 8#4 x y 0#4), by simp [Instr.wf, Instr.operandRanges, rangesHold, fits]⟩

theorem or (x y : Reg) : Statement (.or x y) :=
  ⟨of_eq (selects_nibble 8#4 x y 1#4), by simp [Instr.wf, Instr.operandRanges, rangesHold, fits]⟩

theorem and (x y : Reg) : Statement (.and x y) :=
  ⟨of_eq (selects_nibble 8#4 x y 2#4), by simp [Instr.wf, Instr.operandRanges, rangesHold, fits]⟩

theorem xor (x y : Reg) : Statement (.xor x y) :=
  ⟨of_eq (selects_nibble 8#4 x y 3#4), by simp [Instr.wf, Instr.operandRanges, rangesHold, fits]⟩

theorem addr (x y : Reg) : Statement (.addr x y) :=
  ⟨of_eq (selects_nibble 8#4 x y 4#4), by simp [Instr.wf, Instr.operandRanges, rangesHold, fits]⟩

theorem sub (x y : Reg) : Statement (.sub x y) :=
  ⟨of_eq (selects_nibble 8#4 x y 5#4), by simp [Instr.wf, Instr.operandRanges, rangesHold, fits]⟩

theorem shr (x : Reg) : Statement (.shr x) :=
  ⟨by revert x; decide, by simp [Instr.wf, Instr.operandRanges, rangesHold, fits]⟩

theorem subn (x y : Reg) : Statement (.subn x y) :=
  ⟨of_eq (selects_nibble 8#4 x y 7#4), by simp [Instr.wf, Instr.operandRanges, rangesHold, fits]⟩

theorem shl (x : Reg) : Statement (.shl x) :=
  ⟨by revert x; decide, by simp [Instr.wf, Instr.operandRanges, rangesHold, fits]⟩

theorem sner (x y : Reg) : Statement (.sner x y) :=
  ⟨of_eq (selects_class 9#4 x y 0#4), by simp [Instr.wf, Instr.operandRanges, rangesHold, fits]⟩

theorem ldi (nnn : Addr) : Statement (.ldi nnn) :=
  ⟨of_eq (selects_addr 10#4 nnn), by simp [Instr.wf, Instr.operandRanges, rangesHold, fits]⟩

theorem drw (x y : Reg) (n : Nibble) : Statement (.drw x y n) :=
  ⟨of_eq (selects_class 13#4 x y n), by simp [Instr.wf, Instr.operandRanges, rangesHold, fits]⟩

theorem str (x : Reg) : Statement (.str x) :=
  ⟨of_eq (selects_byte 15#4 x 85#8), by simp [Instr.wf, Instr.operandRanges, rangesHold, fits]⟩

theorem ldr (x : Reg) : Statement (.ldr x) :=
  ⟨of_eq (selects_byte 15#4 x 101#8), by simp [Instr.wf, Instr.operandRanges, rangesHold, fits]⟩

end Sys2Proof.Laws.RowSelects
end

