-- ==== Sys2Proof/Laws/Run.lean ====
section
/-! SUPPORT. A run of cycles, one cycle at a time. -/

namespace Sys2Proof.Machine

/-- A run whose first cycle completes is the run from the state after it. -/
theorem run_succ_of_next (k : Nat) {s t : State} (h : step s = .next t) :
    Host.Core.run Sys2Proof.core (k + 1) s = Host.Core.run Sys2Proof.core k t := by
  have unfoldOnce : ∀ (M : Host.Core) (k : Nat) (s t : M.State), M.step s = .next t →
      M.run (k + 1) s = M.run k t := by
    intro M k s t h
    simp [Host.Core.run, h]
  exact unfoldOnce Sys2Proof.core k s t h

end Sys2Proof.Machine
end

