-- ==== Sys2Proof/Tests/Slice0.lean ====
section
/-! SUPPORT. Tests: the checks of WellFormed, words written out from the spec, single steps with results
from spec/95_test_vectors.md (the V-number is in each comment), and witnesses for the hypotheses of the
statements. -/

namespace Sys2Proof.Tests

open Sys2Proof.Machine

/-! ## WellFormed: an ill-formed term for each check -/

theorem test_wf_refuses_operand_out_of_range : rangesHold [(3, 16), (16, 16)] = false := by decide
theorem test_wf_accepts_largest_operands : (Instr.drw 15#4 15#4 15#4).wf = true := by decide
theorem test_wf_refuses_font_base_outside_reserved :
    Config.wf { Config.standard with fontBase := 0x200 } = false := by decide
theorem test_wf_refuses_font_past_reserved :
    Config.wf { Config.standard with fontBase := 0x1FF, fontData := [1#8, 2#8] } = false := by decide
theorem test_wf_accepts_font_to_the_end :
    Config.wf { Config.standard with fontBase := 0x1FE, fontData := [1#8, 2#8] } = true := by decide
theorem test_wf_refuses_image_too_long : imageFits (List.replicate 3585 0#8) = false := by
  unfold imageFits
  rw [List.length_replicate]
  decide
theorem test_wf_accepts_longest_image : imageFits (List.replicate 3584 0#8) = true := by
  unfold imageFits
  rw [List.length_replicate]
  decide

/-! ## Decoding: every constructor, words from the patterns of R118 (V100 to V120) -/

theorem test_decode_cls : decode 0x0120#16 = .ok .cls := by decide
theorem test_decode_ret : decode 0x0ABE#16 = .ok .ret := by decide
theorem test_decode_jp : decode 0x1ABC#16 = .ok (.jp 0xABC#12) := by decide
theorem test_decode_call : decode 0x2ABC#16 = .ok (.call 0xABC#12) := by decide
theorem test_decode_se : decode 0x3A42#16 = .ok (.se 0xA#4 0x42#8) := by decide
theorem test_decode_sne : decode 0x4A42#16 = .ok (.sne 0xA#4 0x42#8) := by decide
theorem test_decode_ser : decode 0x512F#16 = .ok (.ser 1#4 2#4) := by decide
theorem test_decode_ld : decode 0x60AB#16 = .ok (.ld 0#4 0xAB#8) := by decide
theorem test_decode_add : decode 0x7103#16 = .ok (.add 1#4 0x03#8) := by decide
theorem test_decode_mov : decode 0x8120#16 = .ok (.mov 1#4 2#4) := by decide
theorem test_decode_or : decode 0x8121#16 = .ok (.or 1#4 2#4) := by decide
theorem test_decode_and : decode 0x8122#16 = .ok (.and 1#4 2#4) := by decide
theorem test_decode_xor : decode 0x8123#16 = .ok (.xor 1#4 2#4) := by decide
theorem test_decode_addr : decode 0x8014#16 = .ok (.addr 0#4 1#4) := by decide
theorem test_decode_sub : decode 0x8125#16 = .ok (.sub 1#4 2#4) := by decide
theorem test_decode_shr : decode 0x84A6#16 = .ok (.shr 4#4) := by decide
theorem test_decode_subn : decode 0x8127#16 = .ok (.subn 1#4 2#4) := by decide
theorem test_decode_shl : decode 0x840E#16 = .ok (.shl 4#4) := by decide
theorem test_decode_sner : decode 0x9335#16 = .ok (.sner 3#4 3#4) := by decide
theorem test_decode_ldi : decode 0xA00A#16 = .ok (.ldi 0x00A#12) := by decide
theorem test_decode_drw : decode 0xD12F#16 = .ok (.drw 1#4 2#4 15#4) := by decide
theorem test_decode_str : decode 0xF355#16 = .ok (.str 3#4) := by decide
theorem test_decode_ldr : decode 0xFF65#16 = .ok (.ldr 15#4) := by decide

/-- V105, V106, V110, V111, V113, V114, V116, V119, V120. -/
theorem test_decode_unknown :
    [0x0001#16, 0x00EF#16, 0x8128#16, 0x812F#16, 0xB300#16, 0xC0FF#16, 0xE09E#16, 0xF056#16, 0xF007#16,
      0xF00A#16, 0xF015#16, 0xF018#16, 0xF01E#16, 0xF029#16, 0xF033#16].all
      (fun w => decode w == .error (.unknownOpcode w)) = true := by decide

/-- A word's bytes, first byte high; one byte is no instruction (R110). -/
theorem test_decode_bytes : decodeBytes [0x60#8, 0xAB#8, 0xA0#8] = .ok (.ld 0#4 0xAB#8, [0xA0#8]) := by decide
theorem test_decode_truncated : decodeBytes [0x60#8] = .error (.truncated 1) := by decide
theorem test_encode_cls_ret : encode .cls = 0x00E0#16 ∧ encode .ret = 0x00EE#16 := by decide
theorem test_encode_fields : encode (.drw 1#4 2#4 15#4) = 0xD12F#16 ∧ encode (.str 3#4) = 0xF355#16 := by decide
theorem test_decode_table_word : decodeTableWord 16 0x3A42 = some (.se 0xA#4 0x42#8) := by decide

/-! ## Single steps from a small state -/

/-- The reset state with registers, I and bytes of memory set. -/
def start (regs : List (Reg × Byte)) (i : Word) (bytes : List (Nat × Byte)) : State :=
  let s := regs.foldl (fun s r => s.setV r.1 r.2) (State.reset.setI i)
  bytes.foldl (fun s c => s.storeByte c.1 c.2) s

/-- The state with XFER_MODE `range`. -/
def ranged (s : State) : State := { s with config := { s.config with xferMode := .range } }

/-- The state with UNKNOWN_POLICY `permissive`. -/
def lenient (s : State) : State := { s with config := { s.config with unknownPolicy := .permissive } }

/-- Part of the state after one cycle that runs a word. -/
def after {α : Type} (w : Word) (s : State) (get : State → α) : Option α :=
  match step (s.placeWord w) with
  | .next t => some (get t)
  | _ => none

/-- The fatal condition of one cycle that runs a word. -/
def faultOf (w : Word) (s : State) : Option Fault :=
  match step (s.placeWord w) with
  | .fault f => some f
  | _ => none

/-- Three registers and pc. -/
def regs3 (a b c : Reg) (s : State) : Byte × Byte × Byte × Word := (s.getV a, s.getV b, s.getV c, s.pc)

/-- V1, V2. -/
theorem test_se_skips : after 0x3A42#16 (start [(0xA#4, 0x42#8)] 0#16 []) State.pc = some 0x204#16 := by decide
theorem test_se_falls_through : after 0x3A42#16 (start [(0xA#4, 0x43#8)] 0#16 []) State.pc = some 0x202#16 := by decide
/-- V3, V4. -/
theorem test_sne_skips : after 0x4A42#16 (start [(0xA#4, 0x43#8)] 0#16 []) State.pc = some 0x204#16 := by decide
theorem test_sne_falls_through : after 0x4A42#16 (start [(0xA#4, 0x42#8)] 0#16 []) State.pc = some 0x202#16 := by decide
/-- V6, V7. -/
theorem test_ser_skips : after 0x512F#16 (start [(1#4, 7#8), (2#4, 7#8)] 0#16 []) State.pc = some 0x204#16 := by decide
theorem test_ser_falls_through : after 0x5120#16 (start [(1#4, 7#8), (2#4, 8#8)] 0#16 []) State.pc = some 0x202#16 := by decide
/-- V9, V10. -/
theorem test_sner_skips : after 0x9120#16 (start [(1#4, 7#8), (2#4, 8#8)] 0#16 []) State.pc = some 0x204#16 := by decide
theorem test_sner_same_register : after 0x9335#16 (start [(3#4, 1#8)] 0#16 []) State.pc = some 0x202#16 := by decide
/-- V11, V13. -/
theorem test_jp : after 0x1ABC#16 State.reset State.pc = some 0xABC#16 := by decide
theorem test_jp_last_address : (after 0x1FFF#16 State.reset step).map (fun o =>
    match o with
    | .fault f => some f
    | _ => none) = some (some (.fetchOutOfBounds 0xFFF#16)) := by decide
/-- V15, V17. -/
theorem test_call_deepest : after 0x2ABC#16 (State.reset.setSp 14#4)
    (fun t => (t.pc, t.sp, t.stackAt 14#4)) = some (0xABC#16, 15#4, 0x0202#16) := by decide
theorem test_call_overflow : faultOf 0x2ABC#16 (State.reset.setSp 15#4) = some (.stackOverflow 0x200#16) := by decide
/-- V16, V19. -/
theorem test_ret : after 0x00EE#16 ((State.reset.setStack (Vector.replicate 16 0x0202#16)).setSp 1#4)
    (fun t => (t.pc, t.sp, t.stackAt 0#4)) = some (0x0202#16, 0#4, 0x0202#16) := by decide
theorem test_ret_underflow : faultOf 0x0ABE#16 State.reset = some (.stackUnderflow 0x200#16) := by decide
/-- V25, V26. -/
theorem test_ld : after 0x6AFF#16 State.reset (regs3 0xA#4 0xF#4 0#4) = some (0xFF#8, 0#8, 0#8, 0x202#16) := by decide
theorem test_ld_flag_register : after 0x6F07#16 State.reset (fun t => t.getV vF) = some 7#8 := by decide
/-- V28, V29a. -/
theorem test_add_wraps : after 0x71FF#16 (start [(1#4, 0xFF#8), (0xF#4, 1#8)] 0#16 []) (regs3 1#4 0xF#4 0#4)
    = some (0xFE#8, 1#8, 0#8, 0x202#16) := by decide
theorem test_add_flag_register : after 0x7F10#16 (start [(0xF#4, 0xF8#8)] 0#16 []) (fun t => t.getV vF) = some 8#8 := by decide
/-- V29b, V29c. -/
theorem test_ldi_highest : after 0xAFFF#16 State.reset State.I = some 0xFFF#16 := by decide
theorem test_ldi_zero : after 0xA000#16 (start [] 0x123#16 []) State.I = some 0x000#16 := by decide
/-- V63, V64. -/
theorem test_mov : after 0x8120#16 (start [(2#4, 0x7E#8), (0xF#4, 1#8)] 0#16 []) (regs3 1#4 2#4 0xF#4)
    = some (0x7E#8, 0x7E#8, 1#8, 0x202#16) := by decide
theorem test_mov_flag_register : after 0x8F20#16 (start [(2#4, 0x7E#8), (0xF#4, 1#8)] 0#16 []) (fun t => t.getV vF)
    = some 0x7E#8 := by decide
/-- V65 to V67. -/
theorem test_or : after 0x8121#16 (start [(1#4, 0xF0#8), (2#4, 0x0F#8), (0xF#4, 1#8)] 0#16 []) (regs3 1#4 2#4 0xF#4)
    = some (0xFF#8, 0x0F#8, 1#8, 0x202#16) := by decide
theorem test_and : after 0x8122#16 (start [(1#4, 0xF0#8), (2#4, 0x3C#8), (0xF#4, 1#8)] 0#16 []) (regs3 1#4 2#4 0xF#4)
    = some (0x30#8, 0x3C#8, 1#8, 0x202#16) := by decide
theorem test_xor : after 0x8123#16 (start [(1#4, 0xF0#8), (2#4, 0x3C#8), (0xF#4, 1#8)] 0#16 []) (regs3 1#4 2#4 0xF#4)
    = some (0xCC#8, 0x3C#8, 1#8, 0x202#16) := by decide
/-- V35, V36. -/
theorem test_addr_result_wins : after 0x8F14#16 (start [(0xF#4, 0xF0#8), (1#4, 0x20#8)] 0#16 []) (regs3 0xF#4 1#4 0#4)
    = some (0x10#8, 0x20#8, 0#8, 0x202#16) := by decide
theorem test_addr_old_flag_is_addend : after 0x81F4#16 (start [(0xF#4, 0xF0#8), (1#4, 0x20#8)] 0#16 [])
    (regs3 1#4 0xF#4 0#4) = some (0x10#8, 1#8, 0#8, 0x202#16) := by decide
/-- V41, V42. -/
theorem test_sub_borrow : after 0x8125#16 (start [(1#4, 0x10#8), (2#4, 0x20#8)] 0#16 []) (regs3 1#4 0xF#4 2#4)
    = some (0xF0#8, 0#8, 0x20#8, 0x202#16) := by decide
theorem test_sub_equal : after 0x8125#16 (start [(1#4, 0x33#8), (2#4, 0x33#8)] 0#16 []) (regs3 1#4 0xF#4 2#4)
    = some (0#8, 1#8, 0x33#8, 0x202#16) := by decide
/-- V47, V49a. -/
theorem test_subn_borrow : after 0x8127#16 (start [(1#4, 0x20#8), (2#4, 0x10#8)] 0#16 []) (regs3 1#4 0xF#4 2#4)
    = some (0xF0#8, 0#8, 0x10#8, 0x202#16) := by decide
theorem test_subn_result_wins : after 0x8F17#16 (start [(0xF#4, 3#8), (1#4, 5#8)] 0#16 []) (fun t => t.getV vF)
    = some 2#8 := by decide
/-- V51, V56. -/
theorem test_shr_ignores_y : after 0x84A6#16 (start [(4#4, 5#8), (0xA#4, 0xFF#8)] 0#16 []) (regs3 4#4 0xF#4 0xA#4)
    = some (2#8, 1#8, 0xFF#8, 0x202#16) := by decide
theorem test_shr_result_wins : after 0x8F06#16 (start [(0xF#4, 2#8)] 0#16 []) (fun t => t.getV vF) = some 1#8 := by decide
/-- V59, V61. -/
theorem test_shl_no_carry : after 0x840E#16 (start [(4#4, 0x7F#8), (0xF#4, 1#8)] 0#16 []) (regs3 4#4 0xF#4 0#4)
    = some (0xFE#8, 0#8, 0#8, 0x202#16) := by decide
theorem test_shl_result_wins : after 0x8F0E#16 (start [(0xF#4, 0x81#8)] 0#16 []) (fun t => t.getV vF) = some 2#8 := by decide

/-- The lit cells of a display, as (column, row). -/
def lit (s : State) : List (Nat × Nat) :=
  (List.finRange 32).flatMap fun y => ((List.finRange 64).filter fun x => s.disp.cell x y).map fun x => (x.val, y.val)

/-- The display of a state with one cell lit. -/
def lighting (x : Fin 64) (y : Fin 32) (s : State) : State := s.setDisp (s.disp.toggle x y)

/-- V86. -/
theorem test_cls : after 0x00E0#16 (lighting 5 5 (start [(0xF#4, 1#8)] 0#16 [])) (fun t => (lit t, t.getV vF, t.pc))
    = some ([], 1#8, 0x202#16) := by decide
/-- The example of R211 (P3): wraps at both edges. -/
theorem test_drw_wraps : after 0xD012#16 (start [(0#4, 0x3F#8), (1#4, 0x1F#8)] 0x20E#16 [(0x20E, 0xC0#8), (0x20F, 0x80#8)])
    (fun t => (lit t, t.getV vF)) = some ([(63, 0), (0, 31), (63, 31)], 0#8) := by decide
/-- V78. -/
theorem test_drw_collides : after 0xD011#16 (lighting 1 0 (start [] 0x300#16 [(0x300, 0xC0#8)]))
    (fun t => (lit t, t.getV vF, t.I)) = some ([(0, 0)], 1#8, 0x300#16) := by decide
/-- V81. -/
theorem test_drw_out_of_bounds : faultOf 0xD013#16 (start [] 0xFFE#16 []) = some (.memoryOutOfBounds 0x1000) := by decide
/-- V90, V92. -/
theorem test_str_single : after 0xF155#16 (start [(0#4, 0xAA#8), (1#4, 0xBB#8)] 0xFFF#16 [])
    (fun t => (t.byteAt 0xFFF, t.pc)) = some (0xBB#8, 0x202#16) := by decide
theorem test_str_range : after 0xF255#16 (ranged (start [(0#4, 0x11#8), (1#4, 0x22#8), (2#4, 0x33#8)] 0x300#16 []))
    (fun t => t.bytesFrom 0x300 4) = some [0x11#8, 0x22#8, 0x33#8, 0#8] := by decide
theorem test_str_range_out_of_bounds : faultOf 0xF155#16 (ranged (start [] 0xFFF#16 [])) = some (.memoryOutOfBounds 0x1000) := by decide
/-- V91, V95. -/
theorem test_ldr_single : after 0xF265#16 (start [] 0x300#16 [(0x300, 0x11#8), (0x301, 0x22#8)]) (regs3 0#4 1#4 2#4)
    = some (0#8, 0#8, 0x11#8, 0x202#16) := by decide
theorem test_ldr_range : after 0xFF65#16 (ranged (start [(2#4, 9#8)] 0x200#16 [])) (regs3 0#4 1#4 2#4)
    = some (0xFF#8, 0x65#8, 0#8, 0x202#16) := by decide

/-! ## Unknown opcodes, timers, host operations -/

/-- V130, V133. -/
theorem test_unknown_strict : faultOf 0x0001#16 State.reset = some (.unknownOpcode 0x0001#16) := by decide
theorem test_unknown_permissive : (executeCycle ((lenient State.reset).placeWord 0xB300#16)).2
    = .okUnknown 0xB300#16 0x200#16 := by decide
/-- V140. -/
theorem test_tick : ((tick (State.reset.setTimers 5#8 1#8)).DT, (tick (State.reset.setTimers 5#8 1#8)).ST) = (4#8, 0#8) := by decide
/-- V142. -/
theorem test_blank_memory_is_cls : after 0x0000#16 State.reset State.pc = some 0x202#16 := by decide
/-- The image of E7 lies high byte first from 0x200. -/
theorem test_load : (perform (.loadProgram [0x60#8, 0xAB#8]) State.reset).1.fetchWord = some 0x60AB#16 := by decide
/-- R32: font bytes at FONT_BASE after init, 0x00 beside them. -/
theorem test_font : (State.init { Config.standard with fontBase := 0x50, fontData := [0xF0#8, 0x90#8] }).bytesFrom 0x4F 4
    = [0#8, 0xF0#8, 0x90#8, 0#8] := by decide
/-- R240: the codes. -/
theorem test_codes : [Fault.fetchOutOfBounds 0#16, .unknownOpcode 0#16, .stackOverflow 0#16, .stackUnderflow 0#16,
    .memoryOutOfBounds 0, .loadError 0].map Fault.code = [1, 2, 3, 4, 5, 6] := by decide
/-- A stored byte equal to the reset contents is not listed (canonical form). -/
theorem test_memory_canonical : ((State.reset.storeByte 0x300 7#8).storeByte 0x300 0#8).mem = [] := by decide
/-- The host's placing of a word. -/
theorem test_with_fetch_word : (State.reset.withFetchWord 16 0x6A07).fetchWord = some 0x6A07#16 := by decide

/-! ## Witnesses: for every statement with hypotheses, a state and operands that meet them together -/

/-- An outcome is a next state. -/
def completes : Result → Bool
  | .next _ => true
  | _ => false

theorem next_of_completes {r : Result} (h : completes r = true) : ∃ t, r = .next t := by
  cases r with
  | next t => exact ⟨t, rfl⟩
  | fault f => cases h
  | refused r => cases h

theorem witness_DecodeOfEncodeIsTheInstruction : ∃ i : Instr, i.wf = true := ⟨.drw 15#4 15#4 15#4, by decide⟩

theorem witness_OpcodeRowsAreDisjoint : ∃ w : Word, ∃ r₁ ∈ opcodeRows, ∃ r₂ ∈ opcodeRows,
    r₁.selects w = true ∧ r₂.selects w = true :=
  ⟨0x00EE#16, Opcode.ret.row, by decide, Opcode.ret.row, by decide, by decide, by decide⟩

theorem witness_EncodeOfDecodeDiffersInIgnoredBitsOnly : ∃ (w : Word) (i : Instr), decode w = .ok i :=
  ⟨0x0ABE#16, .ret, by decide⟩

/-- Clauses of StepRunsTheDecodedInstruction and MemoryPrimitivesReadAndWriteOneByte at the bound: pc
0xFFF and 0xFFE; a known word; an unknown word under each policy. -/
theorem witness_StepRunsTheDecodedInstruction :
    (∃ s : State, 0xFFE < s.pc.toNat) ∧
    (∃ s t : State, s.pc.toNat = 0xFFE ∧ s.fetchWord = some 0x0000#16 ∧ decode 0x0000#16 = .ok .cls ∧
      exec .cls s = .next t) ∧
    (∃ s : State, s.fetchWord = some 0x00EE#16 ∧ decode 0x00EE#16 = .ok .ret ∧
      exec .ret s = .fault (.stackUnderflow s.pc)) ∧
    (∃ s : State, s.fetchWord = some 0x0001#16 ∧ decode 0x0001#16 = .error (.unknownOpcode 0x0001#16) ∧
      s.config.unknownPolicy = .strict) ∧
    (∃ s : State, s.fetchWord = some 0x0001#16 ∧ s.config.unknownPolicy = .permissive) :=
  ⟨⟨State.reset.setPc 0xFFF#16, by decide⟩,
    ⟨State.reset.setPc 0xFFE#16, _, by decide, by decide, by decide, rfl⟩,
    ⟨State.reset.placeWord 0x00EE#16, by decide, by decide, rfl⟩,
    ⟨State.reset.placeWord 0x0001#16, by decide, by decide, by decide⟩,
    ⟨(lenient State.reset).placeWord 0x0001#16, by decide, by decide⟩⟩

theorem witness_UnknownOpcodeUnderBothPolicies :
    (∃ s : State, s.fetchWord = some 0xFFFF#16 ∧ (∀ r ∈ opcodeRows, r.selects 0xFFFF#16 = false) ∧
      s.config.unknownPolicy = .permissive) ∧
    (∃ s : State, s.fetchWord = some 0xFFFF#16 ∧ (∀ r ∈ opcodeRows, r.selects 0xFFFF#16 = false) ∧
      s.config.unknownPolicy = .strict) :=
  ⟨⟨(lenient State.reset).placeWord 0xFFFF#16, by decide, by decide, by decide⟩,
    ⟨State.reset.placeWord 0xFFFF#16, by decide, by decide, by decide⟩⟩

/-- One state for each of the five conditions a cycle can raise. -/
theorem witness_FatalConditionNamesItsCause :
    (∃ s, step s = .fault (.fetchOutOfBounds 0xFFF#16)) ∧ (∃ s, step s = .fault (.unknownOpcode 0x0001#16)) ∧
    (∃ s, step s = .fault (.stackOverflow 0x200#16)) ∧ (∃ s, step s = .fault (.stackUnderflow 0x200#16)) ∧
    (∃ s, step s = .fault (.memoryOutOfBounds 0x1000)) :=
  ⟨⟨State.reset.setPc 0xFFF#16, by rfl⟩, ⟨State.reset.placeWord 0x0001#16, by rfl⟩,
    ⟨(State.reset.setSp 15#4).placeWord 0x2ABC#16, by rfl⟩, ⟨State.reset.placeWord 0x00EE#16, by rfl⟩,
    ⟨(start [] 0xFFF#16 []).placeWord 0xD012#16, by rfl⟩⟩

/-- A skip taken and a plain advance, both at the last address a word can be fetched from, and an
unknown word that completes. -/
theorem witness_ProgramCounterAdvancesByTwoOrSkipsByFour :
    (∃ s t, s.pc.toNat = 0xFFE ∧ s.fetchWord = some 0x3000#16 ∧ step s = .next t ∧ SkipTaken (.se 0#4 0#8) s) ∧
    (∃ s t, s.pc.toNat = 0xFFE ∧ s.fetchWord = some 0x0000#16 ∧ step s = .next t) ∧
    (∃ s t, s.fetchWord = some 0xB300#16 ∧ step s = .next t) :=
  ⟨⟨(State.reset.setPc 0xFFE#16).placeWord 0x3000#16, _, by decide, by decide, rfl, by unfold SkipTaken; decide⟩,
    ⟨State.reset.setPc 0xFFE#16, _, by decide, by decide, rfl⟩,
    ⟨(lenient State.reset).placeWord 0xB300#16, _, by decide, rfl⟩⟩

/-- Every instruction completes from some state: an instruction of each row. -/
theorem witness_InstructionsWriteOnlyTheirOwnState : ∃ s : State,
    [Instr.cls, .ret, .jp 0#12, .call 0#12, .se 0#4 0#8, .sne 0#4 0#8, .ser 0#4 1#4, .ld 0#4 0#8, .add 0#4 0#8,
      .mov 0#4 1#4, .or 0#4 1#4, .and 0#4 1#4, .xor 0#4 1#4, .addr 0#4 1#4, .sub 0#4 1#4, .shr 0#4,
      .subn 0#4 1#4, .shl 0#4, .sner 0#4 1#4, .ldi 0#12, .drw 0#4 1#4 15#4, .str 15#4, .ldr 15#4].all
      (fun i => completes (exec i s)) = true := ⟨State.reset.setSp 1#4, by rfl⟩

theorem witness_FlagIsWrittenByTheSixAndIsZeroOrOne :
    (∃ s t, exec (.shr 4#4) s = .next t ∧ ¬ NamesAsResult (.shr 4#4) s vF ∧ Opcode.shr ∈ flagWriters) ∧
    (∃ s t, exec (.ldr 14#4) s = .next t ∧ ¬ NamesAsResult (.ldr 14#4) s vF) :=
  ⟨⟨State.reset, _, rfl, by unfold NamesAsResult; decide, by decide⟩,
    ⟨ranged State.reset, _, rfl, by simp [NamesAsResult, ranged, vF]⟩⟩

theorem witness_LastStackCellIsNeverWritten :
    (∃ s t, exec (.call 0xABC#12) s = .next t ∧ s.sp = 14#4) ∧ Reachable State.reset :=
  ⟨⟨State.reset.setSp 14#4, _, rfl, rfl⟩, ⟨Config.standard, [], by decide, rfl⟩⟩

/-- Both sides of the limits of the call stack. -/
theorem witness_CallPushesReturnAddressOrOverflows :
    (∃ s : State, s.sp ≠ 15#4 ∧ s.sp = 14#4) ∧ (∃ s : State, s.sp = 15#4) :=
  ⟨⟨State.reset.setSp 14#4, by decide, rfl⟩, ⟨State.reset.setSp 15#4, rfl⟩⟩

theorem witness_ReturnPopsIntoProgramCounterOrUnderflows :
    (∃ s : State, s.sp ≠ 0#4 ∧ s.sp = 1#4) ∧ (∃ s : State, s.sp = 0#4) :=
  ⟨⟨State.reset.setSp 1#4, by decide, rfl⟩, ⟨State.reset, rfl⟩⟩

theorem witness_ReturnUndoesCall : ∃ s : State, s.sp ≠ 15#4 := ⟨State.reset.setSp 14#4, by decide⟩

/-- The encoding clauses: a word of each row, with the ignored bits set where there are any. -/
theorem witness_encoding_clauses :
    0x6FFF#16 &&& 0xF000#16 = 0x6000#16 ∧ 0x7FFF#16 &&& 0xF000#16 = 0x7000#16 ∧ 0xAFFF#16 &&& 0xF000#16 = 0xA000#16 ∧
    0x8FF0#16 &&& 0xF00F#16 = 0x8000#16 ∧ 0x8FF1#16 &&& 0xF00F#16 = 0x8001#16 ∧ 0x8FF2#16 &&& 0xF00F#16 = 0x8002#16 ∧
    0x8FF3#16 &&& 0xF00F#16 = 0x8003#16 ∧ 0x8FF4#16 &&& 0xF00F#16 = 0x8004#16 ∧ 0x8FF5#16 &&& 0xF00F#16 = 0x8005#16 ∧
    0x8FF6#16 &&& 0xF00F#16 = 0x8006#16 ∧ 0x8FF7#16 &&& 0xF00F#16 = 0x8007#16 ∧ 0x8FFE#16 &&& 0xF00F#16 = 0x800E#16 ∧
    0x1FFF#16 &&& 0xF000#16 = 0x1000#16 ∧ 0x2FFF#16 &&& 0xF000#16 = 0x2000#16 ∧ 0x3FFF#16 &&& 0xF000#16 = 0x3000#16 ∧
    0x4FFF#16 &&& 0xF000#16 = 0x4000#16 ∧ 0x5FFF#16 &&& 0xF000#16 = 0x5000#16 ∧ 0x9FFF#16 &&& 0xF000#16 = 0x9000#16 ∧
    0x0FF0#16 &&& 0xF00F#16 = 0x0000#16 ∧ 0x0FFE#16 &&& 0xF00F#16 = 0x000E#16 ∧ 0xDFFF#16 &&& 0xF000#16 = 0xD000#16 ∧
    0xFF55#16 &&& 0xF0FF#16 = 0xF055#16 ∧ 0xFF65#16 &&& 0xF0FF#16 = 0xF065#16 := by decide

/-- For the three statements about the blit: a sprite of 15 rows. -/
theorem witness_BlitIsCellwiseXorOfTheSprite : ∃ rows : List Byte, rows.length ≤ 15 ∧ rows.length = 15 :=
  ⟨List.replicate 15 0xFF#8, by simp, by simp⟩

/-- A draw over a lit cell, a draw over an unlit one, and another instruction than LDI. -/
theorem witness_CollisionIsALitCellTurnedUnlit :
    (∃ s t u, exec (.drw 0#4 0#4 1#4) s = .next t ∧ exec (.drw 0#4 0#4 1#4) t = .next u ∧
      (t.getV vF).toNat = 0 ∧ (u.getV vF).toNat = 1) ∧
    (∃ s t, (∀ nnn, Instr.cls ≠ .ldi nnn) ∧ exec .cls s = .next t) :=
  ⟨⟨(start [] 0x300#16 [(0x300, 0x80#8)]), _, _, rfl, rfl, by decide, by decide⟩,
    ⟨State.reset, _, by simp, rfl⟩⟩

theorem witness_DrawingTwiceRestoresTheDisplay : ∃ s t u w, exec .cls s = .next t ∧
    exec (.drw 0#4 1#4 15#4) t = .next u ∧ exec .cls u = .next w :=
  ⟨State.reset, _, _, _, rfl, rfl, rfl⟩

/-- No row with I at the end, and two rows of which the last is at 0xFFF. -/
theorem witness_DrawXorsTheSpriteAndSetsCollision :
    (∃ (s : State) (n : Nibble), s.I = 0xFFF#16 ∧ n.toNat = 0) ∧
    (∃ (s : State) (n : Nibble), s.I.toNat + n.toNat - 1 = 0xFFF) :=
  ⟨⟨start [] 0xFFF#16 [], 0#4, rfl, rfl⟩, ⟨start [] 0xFFE#16 [], 2#4, by decide⟩⟩

theorem witness_AccessBeyondMemoryIsFatal :
    (∃ (s : State) (n : Nibble), s.I.toNat ≤ 0xFFF ∧ 1 ≤ n.toNat ∧ s.I.toNat + n.toNat - 1 = 0x1000) ∧
    (∃ (s : State) (x : Reg), s.I.toNat ≤ 0xFFF ∧ s.config.xferMode = .range ∧ s.I.toNat + x.toNat = 0x1000) :=
  ⟨⟨start [] 0xFFF#16 [], 2#4, by decide, by decide, by decide⟩,
    ⟨ranged (start [] 0xFFF#16 []), 1#4, by decide, by decide, by decide⟩⟩

/-- STR and LDR in both modes, up to address 0xFFF. -/
theorem witness_StoreWritesRegistersFromIndex :
    (∃ (s : State) (x : Reg), s.config.xferMode = .single ∧ s.indexAddr + (s.transferCount x - 1) = 0xFFF) ∧
    (∃ (s : State) (x : Reg), s.config.xferMode = .range ∧ s.indexAddr + (s.transferCount x - 1) = 0xFFF ∧ x = 15#4) :=
  ⟨⟨start [] 0xFFF#16 [], 15#4, by decide, by decide⟩,
    ⟨ranged (start [] 0xFF0#16 []), 15#4, by decide, by decide, rfl⟩⟩

theorem witness_StoreThenLoadGivesTheValueBack :
    (∃ s t u : State, exec (.str 2#4) s = .next t ∧ u.I = t.I ∧ (∀ a, u.byteAt a = t.byteAt a) ∧
      s.config.xferMode = .single ∧ u.config.xferMode = .single) ∧
    (∃ s t u : State, exec (.str 2#4) s = .next t ∧ u.I = t.I ∧ (∀ a, u.byteAt a = t.byteAt a) ∧
      s.config.xferMode = .range ∧ u.config.xferMode = .range) ∧
    (∃ s t u : State, exec (.str 2#4) s = .next t ∧ u.I = t.I ∧ (∀ a, u.byteAt a = t.byteAt a) ∧
      s.config.xferMode = .single ∧ u.config.xferMode = .range ∧ u.I.toNat + 2 ≤ 0xFFF) :=
  ⟨⟨start [] 0x300#16 [], _, _, rfl, rfl, fun _ => rfl, rfl, rfl⟩,
    ⟨ranged (start [] 0x300#16 []), _, _, rfl, rfl, fun _ => rfl, rfl, rfl⟩,
    ⟨start [] 0x300#16 [], _, ranged ((start [] 0x300#16 []).storeByte 0x300 0#8), rfl, rfl, fun _ => rfl, rfl, rfl,
      by decide⟩⟩

theorem witness_NextFetchSeesTheStore : ∃ s t, exec (.str 0#4) s = .next t ∧ s.pc.toNat = 0xFFC ∧ s.I = 0xFFF#16 :=
  ⟨(start [(0#4, 7#8)] 0xFFF#16 []).setPc 0xFFC#16, _, rfl, by decide, rfl⟩

theorem witness_InitGivesTheResetTable : ∃ (s : State) (k : Nat) (b : Byte),
    s.config.fontData[k]? = some b ∧ s.config.fontBase + k = 0x1FF :=
  ⟨State.init { Config.standard with fontBase := 0x1FE, fontData := [1#8, 2#8] }, 1, 2#8, by decide, by decide⟩

/-- The longest image that fits and the shortest that does not. -/
theorem witness_LoadProgramCopiesTheImage : ∃ image : List Byte, image.length ≤ 3584 ∧ image.length = 3584 := by
  refine ⟨List.replicate 3584 0xEE#8, ?_, ?_⟩ <;> rw [List.length_replicate]

theorem witness_LoadErrorCopiesNothing : ∃ image : List Byte, 3584 < image.length := by
  refine ⟨List.replicate 3585 0xEE#8, ?_⟩
  rw [List.length_replicate]
  decide

theorem witness_FirstCycleFetchesTheImage : ∃ rest : List Byte, rest.length ≤ 3582 := ⟨[], by decide⟩

theorem witness_WithFetchWordPlacesTheNextWord : ∃ s : State, s.pc.toNat ≤ 0xFFE ∧ s.pc = 0xFFE#16 :=
  ⟨State.reset.setPc 0xFFE#16, by decide, rfl⟩

theorem witness_FatalConditionRepeatsUntilInit :
    (∃ d, (operate .executeCycle d).2 = .fatal (.stackUnderflow 0x200#16)) ∧
    Operation.init ∉ [Operation.tick, .loadProgram [0x60#8, 0xAB#8], .executeCycle] :=
  ⟨⟨{ machine := State.reset.placeWord 0x00EE#16, reported := none }, by rfl⟩, by decide⟩

/-- The driver may load again before a cycle has run the failing word, and after `init`. -/
theorem witness_LoadProgramIsAcceptedWithNothingReported :
    (operateAll [.loadProgram [0x00#8, 0xEE#8], .tick] (Session.start Config.standard)).reported = none ∧
    (operateAll [.loadProgram [0x00#8, 0xEE#8], .executeCycle, .init] (Session.start Config.standard)).reported =
      none := by decide

/-- R251: RET on an empty stack at 0x200; a load of `LD v0, 0xAB` does not get past it, `init` does. -/
theorem test_load_after_fatal :
    (operate (.loadProgram [0x60#8, 0xAB#8]) (operateAll [.loadProgram [0x00#8, 0xEE#8], .executeCycle]
      (Session.start Config.standard))).2 = .stuck (.stackUnderflow 0x200#16) ∧
    ((operateAll [.loadProgram [0x00#8, 0xEE#8], .executeCycle, .init, .loadProgram [0x60#8, 0xAB#8],
      .executeCycle] (Session.start Config.standard)).machine.getV 0#4) = 0xAB#8 := by decide

/-- From the last word of memory and from just past it. -/
theorem witness_RunningOffTheEndClearsThenFaults :
    (∃ s : State, s.pc.toNat = 0xFFE ∧ s.pc.toNat % 2 = 0 ∧ ∀ a, s.pc.toNat ≤ a → a ≤ 0xFFF → s.byteAt a = 0x00#8) ∧
    (∃ s : State, s.pc.toNat = 0x1000 ∧ s.pc.toNat % 2 = 0 ∧ ∀ a, s.pc.toNat ≤ a → a ≤ 0xFFF → s.byteAt a = 0x00#8) := by
  have blank : ∀ (p : Word) (a : Nat), (State.reset.setPc p).byteAt a = 0x00#8 := by
    intro p a
    simp [State.byteAt, Memory.read, Memory.find, State.reset, Memory.unlisted, Config.standard]
  exact ⟨⟨State.reset.setPc 0xFFE#16, by decide, by decide, fun a _ _ => blank _ a⟩,
    ⟨State.reset.setPc 0x1000#16, by decide, by decide, fun a _ _ => blank _ a⟩⟩

/-- The reset state meets the invariant and completes a cycle; for the three statements about it. -/
theorem witness_EveryCycleKeepsTheInvariant : ∃ s t, MachineInv s ∧ step s = .next t :=
  ⟨State.reset, _, ⟨by decide, by decide, by decide, rfl, rfl, by decide, by decide⟩, rfl⟩

/-- For the statements about reachable states: reset after a load, a tick and a cycle. -/
theorem witness_TimersStayZero :
    Reachable (operateAll [.loadProgram [0x60#8, 0x01#8], .tick, .executeCycle]
      (Session.start Config.standard)).machine :=
  ⟨Config.standard, _, by decide, rfl⟩

/-- The bound of the two primitives, from both sides, and the last fetch read. -/
theorem witness_MemoryPrimitivesReadAndWriteOneByte :
    (∃ a : Nat, a ≤ 0xFFF ∧ a = 0xFFF) ∧ (∃ a : Nat, 0xFFF < a ∧ a = 0x1000) ∧
    (∃ s : State, 0xFFF < s.pc.toNat + 1 ∧ s.pc = 0xFFF#16) :=
  ⟨⟨0xFFF, by decide⟩, ⟨0x1000, by decide⟩, ⟨State.reset.setPc 0xFFF#16, by decide, rfl⟩⟩

theorem witness_LoadReadsRegistersFromIndex :
    (∃ (s : State) (x : Reg), s.config.xferMode = .single ∧ s.indexAddr + (s.transferCount x - 1) = 0xFFF) ∧
    (∃ (s : State) (x : Reg), s.config.xferMode = .range ∧ s.indexAddr + (s.transferCount x - 1) = 0xFFF ∧ x = 15#4) :=
  witness_StoreWritesRegistersFromIndex

theorem witness_InitMeetsTheInvariant : ∃ c : Config, c.wf = true ∧ c.fontBase + c.fontData.length = 0x200 :=
  ⟨{ Config.standard with fontBase := 0x1FE, fontData := [1#8, 2#8] }, by decide, by decide⟩

theorem witness_EveryOperationKeepsTheInvariant :
    (∃ s, MachineInv s) ∧ ∃ d : Session, d.Consistent ∧ d.reported = some (.fetchOutOfBounds 0xFFF#16) :=
  ⟨⟨State.reset, ⟨by decide, by decide, by decide, rfl, rfl, by decide, by decide⟩⟩,
    { machine := State.reset.setPc 0xFFF#16, reported := some (.fetchOutOfBounds 0xFFF#16) },
    fun _ h => by cases h; rfl, rfl⟩

theorem witness_ReachableStatesMeetTheInvariant :
    Reachable (operateAll [.loadProgram [0x60#8, 0x01#8], .executeCycle, .init]
      (Session.start Config.standard)).machine :=
  ⟨Config.standard, _, by decide, rfl⟩

end Sys2Proof.Tests
end

section
/-! Proofs about the state: what a completed instruction leaves unchanged, the reset table of `init`, and the
invariant of spec/10_state.md R34 through a cycle, an operation of the driver and a session. -/

namespace Sys2Proof.Machine

/-! ## What the writes of several registers leave unchanged -/

section
variable (s : State) (flag : Bool) (x : Reg) (b : Byte)

@[simp] theorem State.setFlagThen_I : (s.setFlagThen flag x b).I = s.I := rfl
@[simp] theorem State.setFlagThen_pc : (s.setFlagThen flag x b).pc = s.pc := rfl
@[simp] theorem State.setFlagThen_sp : (s.setFlagThen flag x b).sp = s.sp := rfl
@[simp] theorem State.setFlagThen_stack : (s.setFlagThen flag x b).stack = s.stack := rfl
@[simp] theorem State.setFlagThen_DT : (s.setFlagThen flag x b).DT = s.DT := rfl
@[simp] theorem State.setFlagThen_ST : (s.setFlagThen flag x b).ST = s.ST := rfl
@[simp] theorem State.setFlagThen_mem : (s.setFlagThen flag x b).mem = s.mem := rfl
@[simp] theorem State.setFlagThen_disp : (s.setFlagThen flag x b).disp = s.disp := rfl
@[simp] theorem State.setFlagThen_config : (s.setFlagThen flag x b).config = s.config := rfl

end

section
variable (bytes : List Byte) (k : Nat) (s : State)

theorem State.setRegs_eq : State.setRegs bytes k s = { s with v := (State.setRegs bytes k s).v } := by
  obtain ⟨v, hv⟩ := State.setRegs_eq_withV bytes k s
  rw [hv]

@[simp] theorem State.setRegs_I : (State.setRegs bytes k s).I = s.I := by
  rw [State.setRegs_eq]
@[simp] theorem State.setRegs_pc : (State.setRegs bytes k s).pc = s.pc := by
  rw [State.setRegs_eq]
@[simp] theorem State.setRegs_sp : (State.setRegs bytes k s).sp = s.sp := by
  rw [State.setRegs_eq]
@[simp] theorem State.setRegs_stack : (State.setRegs bytes k s).stack = s.stack := by
  rw [State.setRegs_eq]
@[simp] theorem State.setRegs_DT : (State.setRegs bytes k s).DT = s.DT := by
  rw [State.setRegs_eq]
@[simp] theorem State.setRegs_ST : (State.setRegs bytes k s).ST = s.ST := by
  rw [State.setRegs_eq]
@[simp] theorem State.setRegs_mem : (State.setRegs bytes k s).mem = s.mem := by
  rw [State.setRegs_eq]
@[simp] theorem State.setRegs_disp : (State.setRegs bytes k s).disp = s.disp := by
  rw [State.setRegs_eq]
@[simp] theorem State.setRegs_config : (State.setRegs bytes k s).config = s.config := by
  rw [State.setRegs_eq]

end

section
variable (bytes : List Byte) (a : Nat) (s : State)

@[simp] theorem State.storeBytes_I : (State.storeBytes bytes a s).I = s.I := by
  rw [State.storeBytes_eq_setMem]; rfl
@[simp] theorem State.storeBytes_pc : (State.storeBytes bytes a s).pc = s.pc := by
  rw [State.storeBytes_eq_setMem]; rfl
@[simp] theorem State.storeBytes_sp : (State.storeBytes bytes a s).sp = s.sp := by
  rw [State.storeBytes_eq_setMem]; rfl
@[simp] theorem State.storeBytes_stack : (State.storeBytes bytes a s).stack = s.stack := by
  rw [State.storeBytes_eq_setMem]; rfl
@[simp] theorem State.storeBytes_DT : (State.storeBytes bytes a s).DT = s.DT := by
  rw [State.storeBytes_eq_setMem]; rfl
@[simp] theorem State.storeBytes_ST : (State.storeBytes bytes a s).ST = s.ST := by
  rw [State.storeBytes_eq_setMem]; rfl
@[simp] theorem State.storeBytes_disp : (State.storeBytes bytes a s).disp = s.disp := by
  rw [State.storeBytes_eq_setMem]; rfl
@[simp] theorem State.storeBytes_config : (State.storeBytes bytes a s).config = s.config := by
  rw [State.storeBytes_eq_setMem]; rfl
@[simp] theorem State.getV_storeBytes (r : Reg) : (State.storeBytes bytes a s).getV r = s.getV r := by
  rw [State.storeBytes_eq_setMem]; rfl

end

/-! ## What a completed instruction can be -/

/-- A checked access completes only if what it goes on with does and the addresses exist. -/
theorem of_checkingRange_next {base count : Nat} {goOn : Result} {t : State}
    (h : checkingRange base count goOn = .next t) :
    goOn = .next t ∧ (count = 0 ∨ base + count - 1 ≤ 0xFFF) := by
  obtain ⟨hb, hgo⟩ | ⟨a, -, hf⟩ := checkingRange_cases base count goOn
  · exact ⟨hgo.symm.trans h, firstOutOfBounds_eq_none.mp hb⟩
  · cases hf.symm.trans h

theorem State.memRead_outOfBounds (s : State) {a : Nat} (h : ¬ a ≤ 0xFFF) :
    s.memRead a = .error (.memoryOutOfBounds a) :=
  if_neg h

theorem State.memWrite_outOfBounds (s : State) {a : Nat} (b : Byte) (h : ¬ a ≤ 0xFFF) :
    s.memWrite a b = .error (.memoryOutOfBounds a) :=
  if_neg h

theorem execRet_underflow {s : State} (h : s.sp = 0#4) : exec .ret s = .fault (.stackUnderflow s.pc) := by
  simp [exec, execRet, State.pop, h, raise]

theorem execCall_overflow {s : State} (nnn : Addr) (h : s.sp = 15#4) :
    exec (.call nnn) s = .fault (.stackOverflow s.pc) := by
  simp [exec, execCall, State.push, h, raise]

theorem execStr_single_outOfBounds {s : State} (x : Reg) (hm : s.config.xferMode = .single)
    (h : ¬ s.I.toNat ≤ 0xFFF) : exec (.str x) s = .fault (.memoryOutOfBounds s.I.toNat) := by
  simp only [exec, execStr, hm, storeSingle, State.indexAddr, State.memWrite_outOfBounds s _ h, raise]

theorem execLdr_single_outOfBounds {s : State} (x : Reg) (hm : s.config.xferMode = .single)
    (h : ¬ s.I.toNat ≤ 0xFFF) : exec (.ldr x) s = .fault (.memoryOutOfBounds s.I.toNat) := by
  simp only [exec, execLdr, hm, loadSingle, State.indexAddr, State.memRead_outOfBounds s h, raise]

/-- An instruction completes only if its own check passes (spec/40_execute_cycle.md R148). -/
theorem permitted_of_exec_next {i : Instr} {s t : State} (h : exec i s = .next t) : Permitted i s := by
  cases i with
  | ret => exact fun hsp => nomatch (execRet_underflow hsp).symm.trans h
  | call nnn => exact fun hsp => nomatch (execCall_overflow nnn hsp).symm.trans h
  | drw x y n => exact (of_checkingRange_next h).2
  | str x =>
    cases hm : s.config.xferMode <;> simp only [Permitted, hm]
    · by_contra hI
      exact nomatch (execStr_single_outOfBounds x hm hI).symm.trans h
    · simp only [exec, execStr, hm] at h
      simpa [State.indexAddr, ← Nat.add_assoc] using (of_checkingRange_next h).2
  | ldr x =>
    cases hm : s.config.xferMode <;> simp only [Permitted, hm]
    · by_contra hI
      exact nomatch (execLdr_single_outOfBounds x hm hI).symm.trans h
    · simp only [exec, execLdr, hm] at h
      simpa [State.indexAddr, ← Nat.add_assoc] using (of_checkingRange_next h).2
  | _ => trivial

/-- The shapes of a completed instruction: which parts of the state it writes. The value of a result and of
a flag is left open, as is the condition of a skip. -/
inductive Effect (s : State) : Instr → State → Prop
  | clear : Effect s .cls (s.setDisp Display.clear).advance
  | draw (x y : Reg) (n : Nibble) : n.toNat = 0 ∨ s.I.toNat + n.toNat - 1 ≤ 0xFFF → Effect s (.drw x y n)
      ((s.setDisp (s.drawn x y n).1).setV vF (flagByte (s.drawn x y n).2)).advance
  | ret : s.sp ≠ 0#4 → Effect s .ret ((s.setSp (s.sp - 1#4)).setPc (s.stackAt (s.sp - 1#4)))
  | jump (nnn : Addr) : Effect s (.jp nnn) (s.setPc (zext16 nnn))
  | call (nnn : Addr) : s.sp ≠ 15#4 → Effect s (.call nnn)
      (((s.setStack (s.stack.set s.sp.toNat (s.pc + 2#16) s.sp.isLt)).setSp (s.sp + 1#4)).setPc (zext16 nnn))
  | skip (i : Instr) (c : Bool) : i.op ∈ [Opcode.se, .sne, .ser, .sner] → Effect s i (s.skipIf c)
  | result (i : Instr) (x : Reg) (b : Byte) : NamesAsResult i s x → i.op ∉ flagWriters →
      Effect s i (s.setV x b).advance
  | flagResult (i : Instr) (flag : Bool) (x : Reg) (b : Byte) : NamesAsResult i s x → i.op ∈ flagWriters →
      Effect s i (s.setFlagThen flag x b).advance
  | loadIndex (nnn : Addr) : Effect s (.ldi nnn) (s.setI (zext16 nnn)).advance
  | storeSingle (x : Reg) : s.config.xferMode = .single → s.I.toNat ≤ 0xFFF →
      Effect s (.str x) (s.storeByte s.I.toNat (s.getV x)).advance
  | storeRange (x : Reg) : s.config.xferMode = .range → s.I.toNat + x.toNat ≤ 0xFFF →
      Effect s (.str x) (State.storeBytes (s.regsUpTo x) s.I.toNat s).advance
  | loadRange (x : Reg) : s.config.xferMode = .range → s.I.toNat + x.toNat ≤ 0xFFF →
      Effect s (.ldr x) (State.setRegs (s.bytesFrom s.I.toNat (x.toNat + 1)) 0 s).advance

theorem effect_of_exec {i : Instr} {s t : State} (h : exec i s = .next t) : Effect s i t := by
  have hp := permitted_of_exec_next h
  cases i with
  | cls => cases h; exact .clear
  | ret => rw [execRet_eq hp] at h; cases h; exact .ret hp
  | jp nnn => cases h; exact .jump nnn
  | call nnn => rw [execCall_eq nnn hp] at h; cases h; exact .call nnn hp
  | se | sne | ser | sner => cases h; exact .skip _ _ (by simp [Instr.op])
  | ld | add | mov | or | and | xor => cases h; exact .result _ _ _ rfl (by simp [Instr.op, flagWriters])
  | addr | sub | shr | subn | shl => cases h; exact .flagResult _ _ _ _ rfl (by simp [Instr.op, flagWriters])
  | ldi nnn => cases h; exact .loadIndex nnn
  | drw x y n => rw [execDrw_eq x y n hp] at h; cases h; exact .draw x y n hp
  | str x =>
    cases hm : s.config.xferMode <;> simp only [Permitted, hm] at hp
    · rw [execStr_single x hm hp] at h; cases h; exact .storeSingle x hm hp
    · rw [execStr_range x hm hp] at h; cases h; exact .storeRange x hm hp
  | ldr x =>
    cases hm : s.config.xferMode <;> simp only [Permitted, hm] at hp
    · rw [execLdr_single x hm hp] at h; cases h
      exact .result _ _ _ (by simp [NamesAsResult, hm]) (by simp [Instr.op, flagWriters])
    · rw [execLdr_range x hm hp] at h; cases h; exact .loadRange x hm hp

/-! ## Frames (spec/10_state.md R33) -/

namespace Effect

variable {i : Instr} {s t : State}

theorem disp_eq (h : Effect s i t) (hi : i.op ∉ [Opcode.cls, Opcode.drw]) : t.disp = s.disp := by
  cases h with
  | clear | draw => simp [Instr.op] at hi
  | _ => simp

theorem stack_eq (h : Effect s i t) (hi : i.op ∉ [Opcode.call, Opcode.ret]) :
    t.sp = s.sp ∧ t.stack = s.stack := by
  cases h with
  | call | ret => simp [Instr.op] at hi
  | _ => simp

theorem I_eq (h : Effect s i t) (hi : i.op ≠ .ldi) : t.I = s.I := by
  cases h with
  | loadIndex => exact absurd rfl hi
  | _ => simp

theorem mem_eq (h : Effect s i t) (hi : i.op ≠ .str) : t.mem = s.mem := by
  cases h with
  | storeSingle | storeRange => exact absurd rfl hi
  | _ => simp

/-- No shape writes a timer or the configuration. -/
theorem keepsTimers (h : Effect s i t) : KeepsTimers s t := by
  cases h <;> simp [KeepsTimers]

/-- A register that is neither the result nor a flag is as before. -/
theorem getV_eq (h : Effect s i t) (r : Reg) (hr : ¬ NamesAsResult i s r)
    (hf : r = vF → i.op ∉ flagWriters) : t.getV r = s.getV r := by
  cases h with
  | draw x y n =>
    have hne : r ≠ vF := fun e => hf e (by simp [Instr.op, flagWriters])
    simp [State.getV_setV, hne]
  | result _ x b hx =>
    have hne : r ≠ x := fun e => hr (e ▸ hx)
    simp [State.getV_setV, hne]
  | flagResult _ flag x b hx hi =>
    have hne : r ≠ x := fun e => hr (e ▸ hx)
    have hvF : r ≠ vF := fun e => hf e hi
    simp [State.getV_setFlagThen, hne, hvF]
  | loadRange x hm =>
    have hlt : ¬ r.toNat ≤ x.toNat := by simpa [NamesAsResult, hm] using hr
    simp [State.getV_loadRegs, hlt]
  | _ => simp

/-- A flag writer leaves a flag in vF, unless its result is vF (R21). -/
theorem exists_vF_eq_flagByte (h : Effect s i t) (hr : ¬ NamesAsResult i s vF) (hi : i.op ∈ flagWriters) :
    ∃ flag, t.getV vF = flagByte flag := by
  cases h with
  | draw x y n => exact ⟨_, State.getV_setV_self _ _ _⟩
  | flagResult _ flag x b hx =>
    have hne : vF ≠ x := fun e => hr (e ▸ hx)
    exact ⟨flag, by simp [State.getV_setFlagThen, hne]⟩
  | skip _ c hop =>
    have skipsWriteNoFlag : ∀ op ∈ [Opcode.se, .sne, .ser, .sner], op ∉ flagWriters := by decide
    exact absurd hi (skipsWriteNoFlag _ hop)
  | result _ x b hx hn => exact absurd hi hn
  | _ => simp [Instr.op, flagWriters] at hi

end Effect

/-- Settles O13: by the shape of the completed instruction, field by field. -/
theorem instructionsWriteOnlyTheirOwnState : Obligations.InstructionsWriteOnlyTheirOwnState := by
  intro i s t h
  have he := effect_of_exec h
  exact ⟨he.disp_eq, he.stack_eq, he.I_eq, he.mem_eq, he.getV_eq, he.keepsTimers⟩

theorem flagByte_cases (b : Bool) : flagByte b = 0#8 ∨ flagByte b = 1#8 := by
  cases b
  · exact .inl rfl
  · exact .inr rfl

/-- Settles O14: outside the six the frame of vF, in the six the flag they write. -/
theorem flagIsWrittenByTheSixAndIsZeroOrOne : Obligations.FlagIsWrittenByTheSixAndIsZeroOrOne := by
  intro i s t h hr
  have he := effect_of_exec h
  refine ⟨fun hi => he.getV_eq vF hr fun _ => hi, fun hi => ?_⟩
  obtain ⟨flag, hflag⟩ := he.exists_vF_eq_flagByte hr hi
  exact hflag ▸ flagByte_cases flag

/-! ## The state after `init` (spec/10_state.md R32) -/

@[simp] theorem State.getV_init (c : Config) (r : Reg) : (State.init c).getV r = 0x00#8 := by
  simp [State.getV]

@[simp] theorem State.stackAt_init (c : Config) (k : BitVec 4) : (State.init c).stackAt k = 0x0000#16 := by
  simp [State.stackAt]

@[simp] theorem State.byteAt_init (c : Config) (a : Nat) :
    (State.init c).byteAt a = Memory.unlisted c a := rfl

theorem Memory.unlisted_font {c : Config} {k : Nat} {b : Byte} (h : c.fontData[k]? = some b) :
    Memory.unlisted c (c.fontBase + k) = b := by
  simp [Memory.unlisted, h]

theorem Memory.unlisted_outside {c : Config} {a : Nat}
    (h : a < c.fontBase ∨ c.fontBase + c.fontData.length ≤ a) : Memory.unlisted c a = 0x00#8 := by
  unfold Memory.unlisted
  split
  · rfl
  · have hlen : c.fontData.length ≤ a - c.fontBase := by omega
    simp [hlen]

/-- Settles O45: field by field of `State.init`. -/
theorem initGivesTheResetTable : Obligations.InitGivesTheResetTable := by
  intro s
  refine ⟨State.init s.config, rfl, ?_, State.getV_init _, rfl, rfl, rfl, State.stackAt_init _, rfl, rfl,
    fun k b => Memory.unlisted_font, fun a => Memory.unlisted_outside, Display.cell_clear, rfl⟩
  rintro d rfl
  rfl

theorem machineInv_init {c : Config} (h : c.wf = true) : MachineInv (State.init c) where
  index := by simp
  pc := by simp
  stack k := by simp
  delayTimer := rfl
  soundTimer := rfl
  memory := rfl
  config := h

/-- Settles O52: reset is `init` in the standard configuration, which is admissible. -/
theorem initMeetsTheInvariant : Obligations.InitMeetsTheInvariant :=
  ⟨fun _ => machineInv_init, machineInv_init (by decide)⟩

/-! ## The invariant through a cycle (spec/10_state.md R34) -/

theorem zext16_le (nnn : Addr) : (zext16 nnn).toNat ≤ 0xFFF := by
  unfold zext16
  bv_omega

/-- A pc that can be fetched from does not wrap when it moves on (spec/40_execute_cycle.md R150). -/
theorem pc_add_le {p d : Word} (hp : p.toNat ≤ 0xFFE) (hd : d.toNat ≤ 4) :
    (p + d).toNat ≤ 0xFFE + d.toNat := by
  bv_omega

theorem State.stackAt_congr {s t : State} (h : t.stack = s.stack) (k : BitVec 4) :
    t.stackAt k = s.stackAt k := by
  simp [State.stackAt, h]

namespace Effect

variable {i : Instr} {s t : State}

theorem index_le (h : Effect s i t) (hI : s.I.toNat ≤ 0xFFF) : t.I.toNat ≤ 0xFFF := by
  cases h with
  | loadIndex nnn => exact zext16_le nnn
  | _ => simpa using hI

/-- pc moves on by 2 or 4, to a 12-bit target, or to a return address. -/
theorem pc_le (h : Effect s i t) (hpc : s.pc.toNat ≤ 0xFFE) (hstack : ∀ k, (s.stackAt k).toNat ≤ 0x1000) :
    t.pc.toNat ≤ 0x1002 := by
  have hadvance : (s.pc + 2#16).toNat ≤ 0x1000 := pc_add_le hpc (by decide)
  cases h with
  | ret => exact (hstack _).trans (by decide)
  | jump nnn | call nnn => exact (zext16_le nnn).trans (by decide)
  | skip _ c =>
    cases c
    · exact hadvance.trans (by decide)
    · exact pc_add_le hpc (by decide)
  | _ => simpa using hadvance.trans (by decide)

/-- Only CALL writes a cell, with the address after it. -/
theorem stack_le (h : Effect s i t) (hpc : s.pc.toNat ≤ 0xFFE) (hstack : ∀ k, (s.stackAt k).toNat ≤ 0x1000)
    (k : BitVec 4) : (t.stackAt k).toNat ≤ 0x1000 := by
  cases h with
  | call nnn =>
    simp only [State.stackAt_setPc, State.stackAt_setSp, State.stackAt_setStack]
    split
    · exact pc_add_le hpc (by decide)
    · exact hstack k
  | _ => rw [State.stackAt_congr (s := s) (by simp)]; exact hstack k

theorem wf_mem (h : Effect s i t) (hm : Memory.wf s.config s.mem = true) : Memory.wf s.config t.mem = true := by
  cases h with
  | storeSingle x _ hI => exact Memory.wf_write _ _ _ _ (Nat.lt_succ_of_le hI) hm
  | storeRange x _ hI =>
    have hfits : s.I.toNat + (s.regsUpTo x).length ≤ memSize := by
      rw [State.length_regsUpTo]
      exact Nat.succ_le_succ hI
    exact State.wf_storeBytes _ _ _ (.inr hfits) hm
  | _ => simpa using hm

/-- A completed instruction keeps the invariant, from a pc that can be fetched from. -/
theorem machineInv (h : Effect s i t) (hpc : s.pc.toNat ≤ 0xFFE) (hs : MachineInv s) : MachineInv t := by
  obtain ⟨hDT, hST, hconfig⟩ := h.keepsTimers
  exact
    { index := h.index_le hs.index
      pc := h.pc_le hpc hs.stack
      stack := h.stack_le hpc hs.stack
      delayTimer := hDT.trans hs.delayTimer
      soundTimer := hST.trans hs.soundTimer
      memory := hconfig ▸ h.wf_mem hs.memory
      config := hconfig ▸ hs.config }

end Effect

theorem MachineInv.advance {s : State} (hs : MachineInv s) (hpc : s.pc.toNat ≤ 0xFFE) :
    MachineInv s.advance :=
  { hs with pc := (pc_add_le hpc (by decide)).trans (by decide) }

theorem machineInv_step {s t : State} (hs : MachineInv s) (h : step s = .next t) : MachineInv t := by
  obtain ⟨w, hw, ⟨i, -, hi⟩ | ⟨e, -, -, rfl⟩⟩ := step_next_cases h
  · exact (effect_of_exec hi).machineInv (State.fetchWord_eq_some.mp hw).1 hs
  · exact hs.advance (State.fetchWord_eq_some.mp hw).1

/-- Settles O53: the fetch bounds pc, and each shape of completing keeps each clause. -/
theorem everyCycleKeepsTheInvariant : Obligations.EveryCycleKeepsTheInvariant :=
  fun _ _ => machineInv_step

/-! ## The timers and the cycle (spec/15_blocks_and_interfaces.md R51, spec/60_exceptions.md R264) -/

/-- An outcome with its next state changed. -/
def mapNext (f : State → State) : Result → Result
  | .next t => .next (f t)
  | .fault r => .fault r
  | .refused r => .refused r

theorem mapNext_checkingRange (f : State → State) (base count : Nat) (goOn : Result) :
    mapNext f (checkingRange base count goOn) = checkingRange base count (mapNext f goOn) := by
  unfold checkingRange
  cases firstOutOfBounds base count <;> rfl

section
variable (s : State) (dt st : Byte)

theorem State.storeBytes_setTimers (bytes : List Byte) (a : Nat) :
    State.storeBytes bytes a (s.setTimers dt st) = (State.storeBytes bytes a s).setTimers dt st := by
  induction bytes generalizing a s with
  | nil => rfl
  | cons b bytes ih => exact ih (s.storeByte a b) (a + 1)

theorem State.setRegs_setTimers (bytes : List Byte) (k : Nat) :
    State.setRegs bytes k (s.setTimers dt st) = (State.setRegs bytes k s).setTimers dt st := by
  induction bytes generalizing k s with
  | nil => rfl
  | cons b bytes ih => exact ih (s.setV (BitVec.ofNat 4 k) b) (k + 1)

/-- No instruction reads or writes a timer. -/
theorem exec_setTimers (i : Instr) :
    exec i (s.setTimers dt st) = mapNext (·.setTimers dt st) (exec i s) := by
  cases i with
  | ret =>
    by_cases h : s.sp = 0#4
    · rw [execRet_underflow h, execRet_underflow (s := s.setTimers dt st) h]; rfl
    · rw [execRet_eq h, execRet_eq (s := s.setTimers dt st) h]; rfl
  | call nnn =>
    by_cases h : s.sp = 15#4
    · rw [execCall_overflow nnn h, execCall_overflow (s := s.setTimers dt st) nnn h]; rfl
    · rw [execCall_eq nnn h, execCall_eq (s := s.setTimers dt st) nnn h]; rfl
  | drw x y n =>
    simp only [exec, execDrw, mapNext_checkingRange]
    rfl
  | str x =>
    cases hm : s.config.xferMode with
    | single =>
      by_cases h : s.I.toNat ≤ 0xFFF
      · rw [execStr_single x hm h, execStr_single (s := s.setTimers dt st) x hm h]; rfl
      · rw [execStr_single_outOfBounds x hm h, execStr_single_outOfBounds (s := s.setTimers dt st) x hm h]; rfl
    | range =>
      simp only [exec, execStr, storeRange, State.setTimers_config, hm, mapNext_checkingRange]
      exact congrArg (fun u => checkingRange _ _ (.next u.advance)) (State.storeBytes_setTimers s dt st _ _)
  | ldr x =>
    cases hm : s.config.xferMode with
    | single =>
      by_cases h : s.I.toNat ≤ 0xFFF
      · rw [execLdr_single x hm h, execLdr_single (s := s.setTimers dt st) x hm h]; rfl
      · rw [execLdr_single_outOfBounds x hm h, execLdr_single_outOfBounds (s := s.setTimers dt st) x hm h]; rfl
    | range =>
      simp only [exec, execLdr, loadRange, State.setTimers_config, hm, mapNext_checkingRange]
      exact congrArg (fun u => checkingRange _ _ (.next u.advance)) (State.setRegs_setTimers s dt st _ _)
  | _ => rfl

theorem step_setTimers : step (s.setTimers dt st) = mapNext (·.setTimers dt st) (step s) := by
  have hfetch : (s.setTimers dt st).fetchWord = s.fetchWord := rfl
  unfold step
  rw [hfetch]
  cases s.fetchWord with
  | none => rfl
  | some w =>
    cases hd : decode w with
    | ok i => simp only [hd]; exact exec_setTimers s dt st i
    | error e =>
      simp only [hd, unknownOpcode, State.setTimers_config]
      cases s.config.unknownPolicy <;> rfl

theorem step_setTimers_of_fault {f : Fault} (h : step s = .fault f) :
    step (s.setTimers dt st) = .fault f := by
  rw [step_setTimers, h]
  rfl

end

/-! ## The invariant through an operation of the driver -/

/-- What holds before an operation and of its next state holds after it, whatever it answers. -/
theorem settle_keeps (P : State → Prop) {s : State} {a : Answer} {r : Result} (hs : P s)
    (h : ∀ t, r = .next t → P t) : P (settle s a r).1 := by
  cases r with
  | next t => exact h t rfl
  | fault f => exact hs
  | refused r => exact hs

theorem step_config {s t : State} (h : step s = .next t) : t.config = s.config := by
  obtain ⟨w, hw, ⟨i, -, hi⟩ | ⟨e, -, -, rfl⟩⟩ := step_next_cases h
  · obtain ⟨-, -, hconfig⟩ := (effect_of_exec hi).keepsTimers
    exact hconfig
  · rfl

theorem loadProgram_next {image : List Byte} {s t : State} (h : loadProgram image s = .next t) :
    image.length ≤ maxImage ∧ t = State.storeBytes image loadAddr s := by
  unfold loadProgram at h
  split at h
  case isTrue hfits => cases h; exact ⟨of_decide_eq_true hfits, rfl⟩
  case isFalse => cases h

theorem machineInv_loadProgram {image : List Byte} {s t : State} (hs : MachineInv s)
    (h : loadProgram image s = .next t) : MachineInv t := by
  obtain ⟨hlen, rfl⟩ := loadProgram_next h
  have hfits : loadAddr + image.length ≤ memSize := Nat.add_le_add_left hlen loadAddr
  have hwf := State.wf_storeBytes image loadAddr s (.inr hfits) hs.memory
  rw [State.storeBytes_eq_setMem]
  exact { hs with memory := hwf }

/-- Timers at 0 stay at 0, so a tick changes nothing (R264). -/
theorem MachineInv.tick_eq {s : State} (hs : MachineInv s) : tick s = s := by
  calc tick s
    _ = s.setTimers s.DT s.ST := by simp [tick, tickDown, hs.delayTimer, hs.soundTimer]
    _ = s := rfl

theorem machineInv_perform (op : Operation) {s : State} (hs : MachineInv s) :
    MachineInv (perform op s).1 := by
  cases op with
  | init => exact machineInv_init hs.config
  | loadProgram image => exact settle_keeps MachineInv hs fun t => machineInv_loadProgram hs
  | executeCycle => exact settle_keeps MachineInv hs fun t => machineInv_step hs
  | tick => rw [perform, hs.tick_eq]; exact hs

theorem perform_config (op : Operation) (s : State) : (perform op s).1.config = s.config := by
  cases op with
  | init | tick => rfl
  | loadProgram image =>
    refine settle_keeps (·.config = s.config) rfl fun t h => ?_
    rw [(loadProgram_next h).2, State.storeBytes_config]
  | executeCycle => exact settle_keeps (·.config = s.config) rfl fun t => step_config

/-- In a session too: an operation that is not accepted changes nothing. -/
theorem operate_machine_keeps (P : State → Prop) (op : Operation) {d : Session} (hd : P d.machine)
    (h : P (perform op d.machine).1) : P (operate op d).1.machine := by
  obtain ⟨hm, -⟩ | ⟨image, f, -, -, hstuck⟩ := operate_cases op d
  · exact hm ▸ h
  · exact hstuck ▸ hd

theorem machineInv_operate (op : Operation) {d : Session} (hd : MachineInv d.machine) :
    MachineInv (operate op d).1.machine :=
  operate_machine_keeps MachineInv op hd (machineInv_perform op hd)

theorem consistent_executeCycle {d : Session} (hd : d.Consistent) :
    (operate .executeCycle d).1.Consistent := by
  intro f hf
  rw [operate_executeCycle] at hf ⊢
  have hstep : step d.machine = .fault f := by
    cases ha : (executeCycle d.machine).2 with
    | fatal g =>
      simp only [ha, reportAfter, Option.some.injEq] at hf
      exact step_of_executeCycle_fatal (hf ▸ ha)
    | _ =>
      simp only [ha, reportAfter] at hf
      exact hd f hf
  simpa only [executeCycle_of_fault hstep] using hstep

/-- What is reported stays what the next cycle raises: a tick is not seen by a cycle, a cycle that faults
changes nothing, and a load is accepted only with nothing reported (R251). -/
theorem consistent_operate (op : Operation) {d : Session} (hd : d.Consistent) :
    (operate op d).1.Consistent := by
  cases op with
  | init => exact fun _ hf => nomatch hf
  | tick => exact fun f hf => step_setTimers_of_fault _ _ _ (hd f hf)
  | executeCycle => exact consistent_executeCycle hd
  | loadProgram image =>
    cases hr : d.reported with
    | none =>
      rw [operate_load_of_none hr]
      exact fun f hf => nomatch hr.symm.trans hf
    | some f => rwa [operate_load_of_reported hr]

/-- Settles O54: operation by operation. -/
theorem everyOperationKeepsTheInvariant : Obligations.EveryOperationKeepsTheInvariant :=
  ⟨fun op _ => machineInv_perform op, fun op _ => ⟨machineInv_operate op, consistent_operate op⟩⟩

/-! ## The invariant through a session -/

/-- What every operation keeps, every list of operations keeps. -/
theorem operateAll_keeps (P : Session → Prop) (hkeep : ∀ op d, P d → P (operate op d).1)
    (ops : List Operation) {d : Session} (hd : P d) : P (operateAll ops d) := by
  induction ops generalizing d with
  | nil => exact hd
  | cons op ops ih => exact ih (hkeep op d hd)

theorem machineInv_of_reachable {s : State} (h : Reachable s) : MachineInv s := by
  obtain ⟨c, ops, hc, rfl⟩ := h
  exact operateAll_keeps (fun d => MachineInv d.machine)
    (fun op _ => machineInv_operate op) ops (machineInv_init hc)

theorem operateAll_config (ops : List Operation) (d : Session) :
    (operateAll ops d).machine.config = d.machine.config :=
  operateAll_keeps (fun e => e.machine.config = d.machine.config)
    (fun op e he => operate_machine_keeps (·.config = d.machine.config) op he
      ((perform_config op e.machine).trans he))
    ops rfl

theorem consistent_start (c : Config) : (Session.start c).Consistent :=
  fun _ hf => nomatch hf

/-- Settles O55: each clause holds at the start and every operation keeps it. -/
theorem reachableStatesMeetTheInvariant : Obligations.ReachableStatesMeetTheInvariant :=
  ⟨fun _ => machineInv_of_reachable, operateAll_config, fun c ops =>
    operateAll_keeps Session.Consistent (fun op _ => consistent_operate op) ops (consistent_start c)⟩

end Sys2Proof.Machine
end

section
/-! Proofs about the boundary operations (spec/15_blocks_and_interfaces.md): the display snapshot, the
independence of ticks and cycles, and the load of a program image. -/

namespace Sys2Proof.Machine

/-! ## Ticks and cycles (R51, spec/60_exceptions.md R264) -/

/-- No cycle changes a timer or the configuration, whatever word it fetched. -/
theorem step_keepsTimers {s t : State} (h : step s = .next t) : KeepsTimers s t := by
  obtain ⟨w, -, ⟨i, -, hi⟩ | ⟨e, -, -, rfl⟩⟩ := step_next_cases h
  · exact (effect_of_exec hi).keepsTimers
  · exact ⟨rfl, rfl, rfl⟩

/-- A tick sets the timers, which no cycle reads, to functions of themselves, and no cycle writes them. -/
theorem step_tick (s : State) : step (tick s) = mapNext tick (step s) := by
  rw [tick, step_setTimers]
  cases h : step s with
  | next t =>
    obtain ⟨hDT, hST, -⟩ := step_keepsTimers h
    simp only [mapNext, tick, hDT, hST]
  | fault f => rfl
  | refused r => rfl

/-- The report is of the fetched word, of pc and of the configuration, none of which a tick writes. -/
theorem cycleReport_tick (s : State) : (tick s).cycleReport = s.cycleReport := rfl

/-- Settles O43: a cycle neither reads nor writes what a tick changes. -/
theorem tickCommutesWithTheCycle : Obligations.TickCommutesWithTheCycle := fun s =>
  ⟨step_tick s, cycleReport_tick s⟩

/-! ## The load of a program image (R60, spec/70_reset_and_hazards.md R283) -/

theorem loadProgram_of_fits (s : State) {image : List Byte} (h : image.length ≤ maxImage) :
    loadProgram image s = .next (State.storeBytes image loadAddr s) :=
  if_pos (decide_eq_true h)

theorem perform_load_of_fits (s : State) {image : List Byte} (h : image.length ≤ maxImage) :
    perform (.loadProgram image) s = (State.storeBytes image loadAddr s, .ok) := by
  rw [perform, loadProgram_of_fits s h, settle]

theorem State.byteAt_storeBytes_add (s : State) {bytes : List Byte} {k : Nat} {b : Byte} (a : Nat)
    (h : bytes[k]? = some b) : (State.storeBytes bytes a s).byteAt (a + k) = b := by
  rw [State.byteAt_storeBytes, if_pos (Nat.le_add_right a k), Nat.add_sub_cancel_left, h, Option.getD_some]

theorem State.keepsMemOutside_storeBytes (bytes : List Byte) (a : Nat) (s : State) :
    KeepsMemOutside a bytes.length s (State.storeBytes bytes a s) := by
  rintro p (hbelow | habove)
  · rw [State.byteAt_storeBytes, if_neg (Nat.not_le.mpr hbelow)]
  · have hnone : bytes[p - a]? = none := List.getElem?_eq_none (by omega)
    rw [State.byteAt_storeBytes, hnone, Option.getD_none, ite_self]

/-- Settles O46: a load of an image that fits is `storeBytes` at 0x200. -/
theorem loadProgramCopiesTheImage : Obligations.LoadProgramCopiesTheImage := by
  intro s image hlen
  refine ⟨State.storeBytes image loadAddr s, loadProgram_of_fits s hlen, perform_load_of_fits s hlen, ?_,
    fun k b => State.byteAt_storeBytes_add s loadAddr, State.keepsMemOutside_storeBytes image loadAddr s,
    State.storeBytes_eq_setMem image loadAddr s⟩
  rintro d rfl hd
  rw [operate_load_of_none hd, perform_load_of_fits d.machine hlen, hd]

/-! ## The snapshot of the display (R63) -/

theorem length_displaySnapshot (s : State) : (displaySnapshot s).length = 32 := by
  simp [displaySnapshot]

theorem getElem?_displaySnapshot (s : State) (y : Fin 32) :
    (displaySnapshot s)[y.val]? = some ((List.finRange 64).map fun x => s.disp.cell x y) := by
  simp [displaySnapshot]

/-- Settles O42: entry y of the snapshot is the list of the 64 cells of row y. -/
theorem snapshotHoldsEveryCell : Obligations.SnapshotHoldsEveryCell := by
  refine fun s => ⟨length_displaySnapshot s, fun x y => ⟨_, getElem?_displaySnapshot s y, ?_, ?_⟩⟩
  case refine_1 => rw [List.length_map, List.length_finRange]
  case refine_2 => simp

end Sys2Proof.Machine
end

section
/-! Proofs about memory and the fetch (spec/20_memory.md): the two access primitives, the word a cycle fetches,
the cycle as a function of that word, and the fetch after a store. -/

namespace Sys2Proof.Machine

/-! ## The word of two bytes (spec/30_encoding.md R110) -/

theorem toNat_wordOfBytes (hi lo : Byte) : (wordOfBytes hi lo).toNat = hi.toNat * 256 + lo.toNat := by
  rw [wordOfBytes, BitVec.toNat_append, Nat.shiftLeft_eq, Nat.mul_comm, Nat.two_pow_add_eq_or_of_lt lo.isLt,
    Nat.mul_comm]

/-- The two bytes of a word, put together again, are the word. -/
theorem wordOfBytes_halves (w : Word) : wordOfBytes (w.extractLsb' 8 8) (w.extractLsb' 0 8) = w := by
  apply BitVec.eq_of_toNat_eq
  rw [toNat_wordOfBytes, BitVec.extractLsb'_toNat, BitVec.extractLsb'_toNat, Nat.shiftRight_eq_div_pow]
  have hlt := w.isLt
  omega

@[simp] theorem tableWord_toNat (w : Word) : tableWord 16 w.toNat = w := by
  rw [tableWord, Nat.mod_eq_of_lt w.isLt, BitVec.ofNat_toNat, BitVec.setWidth_eq]

/-! ## The access primitives (R84, R85) -/

theorem State.memRead_storeByte_self (s : State) {a : Nat} (b : Byte) (h : a ≤ 0xFFF) :
    (s.storeByte a b).memRead a = .ok b := by
  rw [State.memRead_eq _ _ h, State.byteAt_storeByte, if_pos rfl]

theorem State.memRead_storeByte_ne (s : State) {a p : Nat} (b : Byte) (hp : p ≠ a) :
    (s.storeByte a b).memRead p = s.memRead p := by
  simp only [State.memRead, State.byteAt_storeByte, if_neg hp]

/-! ## The fetch (R81, R86) -/

theorem State.fetchWord_of_le {s : State} (h : s.pc.toNat ≤ 0xFFE) :
    s.fetchWord = some (wordOfBytes (s.byteAt s.pc.toNat) (s.byteAt (s.pc.toNat + 1))) :=
  if_pos h

theorem State.fetchWord_of_lt {s : State} (h : 0xFFE < s.pc.toNat) : s.fetchWord = none :=
  if_neg (Nat.not_le.mpr h)

/-- Bytes stored from pc up begin with the word the next cycle fetches. -/
theorem State.fetchWord_storeBytes_pc {s : State} (hi lo : Byte) (rest : List Byte) (h : s.pc.toNat ≤ 0xFFE) :
    (State.storeBytes (hi :: lo :: rest) s.pc.toNat s).fetchWord = some (wordOfBytes hi lo) := by
  have hhi : (State.storeBytes (hi :: lo :: rest) s.pc.toNat s).byteAt s.pc.toNat = hi :=
    State.byteAt_storeBytes_add (k := 0) s s.pc.toNat rfl
  have hlo : (State.storeBytes (hi :: lo :: rest) s.pc.toNat s).byteAt (s.pc.toNat + 1) = lo :=
    State.byteAt_storeBytes_add s s.pc.toNat rfl
  rw [State.fetchWord_of_le (by rwa [State.storeBytes_pc]), State.storeBytes_pc, hhi, hlo]

theorem State.withFetchWord_eq {s : State} (w : Word) (h : s.pc.toNat ≤ 0xFFE) :
    s.withFetchWord 16 w.toNat = State.storeBytes (bytesOfWord w) s.pc.toNat s := by
  rw [State.withFetchWord, tableWord_toNat, State.placeWord, if_pos h]

/-- Settles O48: the image is stored from 0x200 up, where pc stands after `init`. -/
theorem firstCycleFetchesTheImage : Obligations.FirstCycleFetchesTheImage := by
  intro c hi lo rest hrest
  have hfits : (hi :: lo :: rest).length ≤ maxImage := Nat.add_le_add_right hrest 2
  have hpc : (State.init c).pc.toNat ≤ 0xFFE := by simp
  exact ⟨_, loadProgram_of_fits _ hfits, State.storeBytes_pc _ _ _, _,
    State.fetchWord_storeBytes_pc hi lo rest hpc, toNat_wordOfBytes hi lo⟩

/-- Settles O49: `withFetchWord` is `storeBytes` of the word's two bytes at pc. -/
theorem withFetchWordPlacesTheNextWord : Obligations.WithFetchWordPlacesTheNextWord := by
  intro s w hpc
  rw [State.withFetchWord_eq w hpc]
  refine ⟨?_, State.keepsMemOutside_storeBytes (bytesOfWord w) _ s, State.storeBytes_eq_setMem _ _ s⟩
  rw [bytesOfWord, State.fetchWord_storeBytes_pc _ _ _ hpc, wordOfBytes_halves]

/-! ## The cycle as a function of the fetched word (spec/40_execute_cycle.md R141, R142) -/

section
variable {s t : State} {w : Word} {i : Instr} {e : DecodeError}

theorem step_of_pc_gt (h : 0xFFE < s.pc.toNat) : step s = .fault (.fetchOutOfBounds s.pc) := by
  simp only [step, State.fetchWord_of_lt h, raise]

theorem step_of_decode_ok (hw : s.fetchWord = some w) (hd : decode w = .ok i) : step s = exec i s := by
  simp only [step, hw, hd]

theorem step_of_decode_error (hw : s.fetchWord = some w) (hd : decode w = .error e) :
    step s = unknownOpcode w s := by
  simp only [step, hw, hd]

theorem unknownOpcode_of_strict (hp : s.config.unknownPolicy = .strict) :
    unknownOpcode w s = .fault (.unknownOpcode w) := by
  simp only [unknownOpcode, hp, raise]

theorem unknownOpcode_of_permissive (hp : s.config.unknownPolicy = .permissive) :
    unknownOpcode w s = .next s.advance := by
  simp only [unknownOpcode, hp]

theorem cycleReport_of_decode_ok (hw : s.fetchWord = some w) (hd : decode w = .ok i) :
    s.cycleReport = none := by
  simp only [State.cycleReport, hw, hd]

theorem cycleReport_of_decode_error (hw : s.fetchWord = some w) (hd : decode w = .error e)
    (hp : s.config.unknownPolicy = .permissive) : s.cycleReport = some (w, s.pc) := by
  simp only [State.cycleReport, hw, hd, hp]

/-- A cycle that completes without a report answers ok (spec/15_blocks_and_interfaces.md R61). -/
theorem executeCycle_of_next (h : step s = .next t) (hr : s.cycleReport = none) :
    executeCycle s = (t, .ok) := by
  simp only [executeCycle, h, hr, settle]

end

/-- Settles O7: by the fetch, then by what the word decodes to, then by the policy. -/
theorem stepRunsTheDecodedInstruction : Obligations.StepRunsTheDecodedInstruction := by
  refine fun s => ⟨step_of_pc_gt, fun hpc => ?_⟩
  have hw := State.fetchWord_of_le hpc
  refine ⟨_, hw, toNat_wordOfBytes _ _, fun i hd => ?_, fun e hd hp => ?_, fun e hd hp => ?_⟩
  case refine_1 =>
    have hstep := step_of_decode_ok hw hd
    have hreport := cycleReport_of_decode_ok hw hd
    exact ⟨hstep, hreport, fun t ht => executeCycle_of_next (hstep.trans ht) hreport,
      fun f hf => executeCycle_of_fault (hstep.trans hf)⟩
  case refine_2 => rw [step_of_decode_error hw hd, unknownOpcode_of_strict hp]
  case refine_3 =>
    rw [step_of_decode_error hw hd, unknownOpcode_of_permissive hp]
    exact ⟨rfl, cycleReport_of_decode_error hw hd hp⟩

/-- Settles O35: by the bound on the address; the fetch faults from pc 0xFFF up. -/
theorem memoryPrimitivesReadAndWriteOneByte : Obligations.MemoryPrimitivesReadAndWriteOneByte := by
  refine fun s a b => ⟨fun ha => ?_, fun ha => ?_, fun hpc => step_of_pc_gt (Nat.lt_of_succ_lt_succ hpc)⟩
  case refine_1 =>
    exact ⟨s.storeByte a b, State.memWrite_eq s a b ha, State.memRead_storeByte_self s b ha,
      fun p _ hp => State.memRead_storeByte_ne s b hp, rfl⟩
  case refine_2 =>
    have hout : ¬ a ≤ 0xFFF := Nat.not_le.mpr ha
    exact ⟨State.memWrite_outOfBounds s b hout, State.memRead_outOfBounds s hout⟩

/-! ## The fetch after a store (R92, R94) -/

/-- The byte STR puts at an address it reaches, as XFER_MODE says (spec/45_memory_transfer.md R230). -/
def State.storedByte (s : State) (x : Reg) (a : Nat) : Byte :=
  match s.config.xferMode with
  | .single => s.getV x
  | .range => s.getV (BitVec.ofNat 4 (a - s.I.toNat))

/-- What a completed STR does to pc and to memory, in both modes. -/
theorem pc_byteAt_of_execStr {s t : State} {x : Reg} (h : exec (.str x) s = .next t) :
    t.pc = s.pc + 2#16 ∧ ∀ a, t.byteAt a =
      if s.I.toNat ≤ a ∧ a < s.I.toNat + s.transferCount x then s.storedByte x a else s.byteAt a := by
  have hp := permitted_of_exec_next h
  cases hm : s.config.xferMode <;> simp only [Permitted, hm] at hp
  case single =>
    rw [execStr_single x hm hp] at h
    cases h
    refine ⟨rfl, fun a => ?_⟩
    have hreach : (s.I.toNat ≤ a ∧ a < s.I.toNat + 1) ↔ a = s.I.toNat := by omega
    simp only [State.byteAt_advance, State.byteAt_storeByte, State.transferCount, State.storedByte, hm, hreach]
  case range =>
    rw [execStr_range x hm hp] at h
    cases h
    refine ⟨by simp, fun a => ?_⟩
    simp only [State.byteAt_advance, State.byteAt_storeRegs, State.transferCount, State.storedByte, hm]

/-- The high-order and the low-order half of a fetched word are the bytes at pc and pc + 1. -/
theorem fetched_byte (s : State) {w : Word} {k : Nat} (hw : s.fetchWord = some w) (hk : k < 2) :
    (if k = 0 then w.toNat / 256 else w.toNat % 256) = (s.byteAt (s.pc.toNat + k)).toNat := by
  obtain ⟨-, rfl⟩ := State.fetchWord_eq_some.mp hw
  rw [toNat_wordOfBytes]
  have hlo := (s.byteAt (s.pc.toNat + 1)).isLt
  obtain rfl | rfl : k = 0 ∨ k = 1 := by omega
  · simp only [↓reduceIte, Nat.add_zero]
    omega
  · simp only [Nat.one_ne_zero, ↓reduceIte]
    omega

/-- Settles O39: the fetch at pc0 + 2 reads memory as the store left it. -/
theorem nextFetchSeesTheStore : Obligations.NextFetchSeesTheStore := by
  intro s t x h hpc
  obtain ⟨htpc, hbyte⟩ := pc_byteAt_of_execStr h
  have hnext : t.pc.toNat = s.pc.toNat + 2 := by
    rw [htpc]
    bv_omega
  have hw := State.fetchWord_of_le (s := t) (by omega)
  refine ⟨_, hw, fun k hk => ?_⟩
  rw [fetched_byte t hw hk, hnext, hbyte]
  unfold State.storedByte
  cases s.config.xferMode <;> exact apply_ite BitVec.toNat _ _ _

end Sys2Proof.Machine
end

section
/-! Proofs about the encoding (spec/30_encoding.md): the fields of a word, the rows a word selects, and the
decoder as a function of the row. -/

namespace Sys2Proof

/-! ## The fields as numbers (R112) -/

section
variable (w : Word)

theorem toNat_opcodeClass : (opcodeClass w).toNat = w.toNat / 4096 := by
  rw [opcodeClass, BitVec.extractLsb'_toNat, Nat.shiftRight_eq_div_pow]
  have hlt := w.isLt
  omega

theorem toNat_regX : (regX w).toNat = w.toNat / 256 % 16 := by
  rw [regX, BitVec.extractLsb'_toNat, Nat.shiftRight_eq_div_pow]

theorem toNat_regY : (regY w).toNat = w.toNat / 16 % 16 := by
  rw [regY, BitVec.extractLsb'_toNat, Nat.shiftRight_eq_div_pow]

theorem toNat_immByte : (immByte w).toNat = w.toNat % 256 := by
  rw [immByte, BitVec.extractLsb'_toNat, Nat.shiftRight_zero]

theorem toNat_immNibble : (immNibble w).toNat = w.toNat % 16 := by
  rw [immNibble, BitVec.extractLsb'_toNat, Nat.shiftRight_zero]

theorem toNat_address : (address w).toNat = w.toNat % 4096 := by
  rw [address, BitVec.extractLsb'_toNat, Nat.shiftRight_zero]

end

/-- Settles O2: each field is a shift and a remainder; the overlaps are arithmetic on them. -/
theorem fieldsAreTheBitRanges : Obligations.FieldsAreTheBitRanges := by
  intro w
  refine ⟨toNat_opcodeClass w, toNat_regX w, toNat_regY w, toNat_immByte w, toNat_immNibble w,
    toNat_address w, ?_, ?_⟩
  · rw [toNat_immByte, toNat_regY, toNat_immNibble]
    omega
  · rw [toNat_address, toNat_regX, toNat_immByte]
    omega

/-! ## Words compared and masked field by field -/

section
variable (w u : Word)

theorem address_eq_iff : address w = address u ↔
    regX w = regX u ∧ regY w = regY u ∧ immNibble w = immNibble u := by
  simp only [← BitVec.toNat_inj, toNat_address, toNat_regX, toNat_regY, toNat_immNibble]
  omega

theorem immByte_eq_iff : immByte w = immByte u ↔ regY w = regY u ∧ immNibble w = immNibble u := by
  simp only [← BitVec.toNat_inj, toNat_immByte, toNat_regY, toNat_immNibble]
  omega

theorem word_eq_iff : w = u ↔
    opcodeClass w = opcodeClass u ∧ regX w = regX u ∧ regY w = regY u ∧ immNibble w = immNibble u := by
  simp only [← BitVec.toNat_inj, toNat_opcodeClass, toNat_regX, toNat_regY, toNat_immNibble]
  omega

end

theorem nibble_and_allOnes (x : Nibble) : x &&& 15#4 = x := BitVec.and_allOnes

/-- Two words agree under a mask if each of their digits agrees under the mask's digit. -/
theorem word_and_eq_iff (w u m : Word) : w &&& m = u &&& m ↔
    opcodeClass w &&& opcodeClass m = opcodeClass u &&& opcodeClass m ∧
    regX w &&& regX m = regX u &&& regX m ∧
    regY w &&& regY m = regY u &&& regY m ∧
    immNibble w &&& immNibble m = immNibble u &&& immNibble m := by
  simp only [word_eq_iff, opcodeClass, regX, regY, immNibble, BitVec.extractLsb'_and]

/-! What the masks of R118 and the operand bits of R112 examine. -/

section
variable (w u : Word)

theorem and_F000_eq_iff : w &&& 0xF000#16 = u &&& 0xF000#16 ↔ opcodeClass w = opcodeClass u := by
  rw [word_and_eq_iff]
  simp [opcodeClass, regX, regY, immNibble, nibble_and_allOnes]

theorem and_F00F_eq_iff : w &&& 0xF00F#16 = u &&& 0xF00F#16 ↔
    opcodeClass w = opcodeClass u ∧ immNibble w = immNibble u := by
  rw [word_and_eq_iff]
  simp [opcodeClass, regX, regY, immNibble, nibble_and_allOnes]

theorem and_F0FF_eq_iff : w &&& 0xF0FF#16 = u &&& 0xF0FF#16 ↔
    opcodeClass w = opcodeClass u ∧ immByte w = immByte u := by
  rw [word_and_eq_iff, immByte_eq_iff]
  simp [opcodeClass, regX, regY, immNibble, nibble_and_allOnes]

theorem and_0FFF_eq_iff : w &&& 0x0FFF#16 = u &&& 0x0FFF#16 ↔ address w = address u := by
  rw [word_and_eq_iff, address_eq_iff]
  simp [opcodeClass, regX, regY, immNibble, nibble_and_allOnes]

theorem and_0FF0_eq_iff : w &&& 0x0FF0#16 = u &&& 0x0FF0#16 ↔ regX w = regX u ∧ regY w = regY u := by
  rw [word_and_eq_iff]
  simp [opcodeClass, regX, regY, immNibble, nibble_and_allOnes]

theorem and_0F00_eq_iff : w &&& 0x0F00#16 = u &&& 0x0F00#16 ↔ regX w = regX u := by
  rw [word_and_eq_iff]
  simp [opcodeClass, regX, regY, immNibble, nibble_and_allOnes]

end

/-! ## The operand fields of the encoder's words -/

section
variable (c x y n : Nibble) (kk : Byte) (nnn : Addr)

@[simp] theorem address_append : address (c ++ nnn) = nnn := BitVec.extractLsb'_append_eq_right

@[simp] theorem immByte_append : immByte (c ++ x ++ kk) = kk := BitVec.extractLsb'_append_eq_right

@[simp] theorem regX_append_byte : regX (c ++ x ++ kk) = x := by
  rw [regX, BitVec.extractLsb'_append_eq_of_le (by decide)]
  exact BitVec.extractLsb'_append_eq_right

@[simp] theorem immNibble_append : immNibble (c ++ x ++ y ++ n) = n := BitVec.extractLsb'_append_eq_right

@[simp] theorem regY_append : regY (c ++ x ++ y ++ n) = y := by
  rw [regY, BitVec.extractLsb'_append_eq_of_le (by decide)]
  exact BitVec.extractLsb'_append_eq_right

@[simp] theorem regX_append : regX (c ++ x ++ y ++ n) = x := by
  rw [regX, BitVec.extractLsb'_append_eq_of_le (by decide), BitVec.extractLsb'_append_eq_of_le (by decide)]
  exact BitVec.extractLsb'_append_eq_right

end

/-! ## The rows of the opcode table (R118) -/

theorem Opcode.row_op (op : Opcode) : op.row.op = op := by
  cases op <;> rfl

theorem Opcode.op_instrOf (op : Opcode) (w : Word) : (op.instrOf w).op = op := by
  cases op <;> rfl

theorem Opcode.mem_allOpcodes (op : Opcode) : op ∈ allOpcodes := by
  cases op <;> decide

theorem mem_opcodeRows {r : OpcodeRow} : r ∈ opcodeRows ↔ ∃ op : Opcode, op.row = r := by
  simp only [opcodeRows, List.mem_map, Opcode.mem_allOpcodes, true_and]

/-! A word selects a row if it has the class of the row's pattern and the sub-field the row's mask examines;
no row looks at bits 11-8 (R114 to R119). -/

section
variable {op : Opcode} {w : Word}

theorem selects_iff_and_eq_and :
    op.row.selects w = true ↔ w &&& op.row.mask = op.row.pattern &&& op.row.mask := by
  have hpattern : op.row.pattern &&& op.row.mask = op.row.pattern := by cases op <;> rfl
  rw [OpcodeRow.selects, beq_iff_eq, hpattern]

theorem selects_iff_of_class_mask (hm : op.row.mask = 0xF000#16) :
    op.row.selects w = true ↔ opcodeClass w = opcodeClass op.row.pattern := by
  rw [selects_iff_and_eq_and, hm, and_F000_eq_iff]

theorem selects_iff_of_nibble_mask (hm : op.row.mask = 0xF00F#16) : op.row.selects w = true ↔
    opcodeClass w = opcodeClass op.row.pattern ∧ immNibble w = immNibble op.row.pattern := by
  rw [selects_iff_and_eq_and, hm, and_F00F_eq_iff]

theorem selects_iff_of_byte_mask (hm : op.row.mask = 0xF0FF#16) : op.row.selects w = true ↔
    opcodeClass w = opcodeClass op.row.pattern ∧ immByte w = immByte op.row.pattern := by
  rw [selects_iff_and_eq_and, hm, and_F0FF_eq_iff]

end

/-- The encoder emits a word of the instruction's own row. -/
theorem selects_encode : ∀ i : Instr, i.op.row.selects (encode i) = true
  | .cls => Laws.RowSelects.cls.1
  | .ret => Laws.RowSelects.ret.1
  | .jp nnn => (Laws.RowSelects.jp nnn).1
  | .call nnn => (Laws.RowSelects.call nnn).1
  | .se x kk => (Laws.RowSelects.se x kk).1
  | .sne x kk => (Laws.RowSelects.sne x kk).1
  | .ser x y => (Laws.RowSelects.ser x y).1
  | .ld x kk => (Laws.RowSelects.ld x kk).1
  | .add x kk => (Laws.RowSelects.add x kk).1
  | .mov x y => (Laws.RowSelects.mov x y).1
  | .or x y => (Laws.RowSelects.or x y).1
  | .and x y => (Laws.RowSelects.and x y).1
  | .xor x y => (Laws.RowSelects.xor x y).1
  | .addr x y => (Laws.RowSelects.addr x y).1
  | .sub x y => (Laws.RowSelects.sub x y).1
  | .shr x => (Laws.RowSelects.shr x).1
  | .subn x y => (Laws.RowSelects.subn x y).1
  | .shl x => (Laws.RowSelects.shl x).1
  | .sner x y => (Laws.RowSelects.sner x y).1
  | .ldi nnn => (Laws.RowSelects.ldi nnn).1
  | .drw x y n => (Laws.RowSelects.drw x y n).1
  | .str x => (Laws.RowSelects.str x).1
  | .ldr x => (Laws.RowSelects.ldr x).1

/-- The encoder puts every operand where the decoder's fields read it. -/
theorem instrOf_encode (i : Instr) : i.op.instrOf (encode i) = i := by
  cases i <;> simp [Instr.op, Opcode.instrOf, encode]

/-! ## The decoder as a function of the row (R120) -/

/-- A word that selects a row decodes to that row's instruction. -/
theorem decode_of_selects {op : Opcode} {w : Word} (h : op.row.selects w = true) :
    decode w = .ok (op.instrOf w) := by
  cases op with
  | cls | ret =>
    obtain ⟨hc, hn⟩ := (selects_iff_of_nibble_mask rfl).mp h
    rw [decode, hc]
    change decodeClass0 w = _
    rw [decodeClass0, hn]
    rfl
  | mov | or | and | xor | addr | sub | shr | subn | shl =>
    obtain ⟨hc, hn⟩ := (selects_iff_of_nibble_mask rfl).mp h
    rw [decode, hc]
    change decodeClass8 w = _
    rw [decodeClass8, hn]
    rfl
  | str | ldr =>
    obtain ⟨hc, hb⟩ := (selects_iff_of_byte_mask rfl).mp h
    rw [decode, hc]
    change decodeClassF w = _
    rw [decodeClassF, hb]
    rfl
  | jp | call | se | sne | ser | ld | add | sner | ldi | drw =>
    rw [decode, (selects_iff_of_class_mask rfl).mp h]
    rfl

/-! In the classes with a sub-field, a value of it without a row is an unknown opcode (R116, R117, R119). -/

theorem selects_or_unknown_class0 {w : Word} (hc : opcodeClass w = 0x0#4) :
    (∃ op : Opcode, op.row.selects w = true) ∨ decodeClass0 w = .error (.unknownOpcode w) := by
  unfold decodeClass0
  split
  case h_1 hn => exact .inl ⟨.cls, (selects_iff_of_nibble_mask rfl).mpr ⟨hc, hn⟩⟩
  case h_2 hn => exact .inl ⟨.ret, (selects_iff_of_nibble_mask rfl).mpr ⟨hc, hn⟩⟩
  case h_3 => exact .inr rfl

theorem selects_or_unknown_class8 {w : Word} (hc : opcodeClass w = 0x8#4) :
    (∃ op : Opcode, op.row.selects w = true) ∨ decodeClass8 w = .error (.unknownOpcode w) := by
  unfold decodeClass8
  split
  case h_1 hn => exact .inl ⟨.mov, (selects_iff_of_nibble_mask rfl).mpr ⟨hc, hn⟩⟩
  case h_2 hn => exact .inl ⟨.or, (selects_iff_of_nibble_mask rfl).mpr ⟨hc, hn⟩⟩
  case h_3 hn => exact .inl ⟨.and, (selects_iff_of_nibble_mask rfl).mpr ⟨hc, hn⟩⟩
  case h_4 hn => exact .inl ⟨.xor, (selects_iff_of_nibble_mask rfl).mpr ⟨hc, hn⟩⟩
  case h_5 hn => exact .inl ⟨.addr, (selects_iff_of_nibble_mask rfl).mpr ⟨hc, hn⟩⟩
  case h_6 hn => exact .inl ⟨.sub, (selects_iff_of_nibble_mask rfl).mpr ⟨hc, hn⟩⟩
  case h_7 hn => exact .inl ⟨.shr, (selects_iff_of_nibble_mask rfl).mpr ⟨hc, hn⟩⟩
  case h_8 hn => exact .inl ⟨.subn, (selects_iff_of_nibble_mask rfl).mpr ⟨hc, hn⟩⟩
  case h_9 hn => exact .inl ⟨.shl, (selects_iff_of_nibble_mask rfl).mpr ⟨hc, hn⟩⟩
  case h_10 => exact .inr rfl

theorem selects_or_unknown_classF {w : Word} (hc : opcodeClass w = 0xF#4) :
    (∃ op : Opcode, op.row.selects w = true) ∨ decodeClassF w = .error (.unknownOpcode w) := by
  unfold decodeClassF
  split
  case h_1 hb => exact .inl ⟨.str, (selects_iff_of_byte_mask rfl).mpr ⟨hc, hb⟩⟩
  case h_2 hb => exact .inl ⟨.ldr, (selects_iff_of_byte_mask rfl).mpr ⟨hc, hb⟩⟩
  case h_3 => exact .inr rfl

/-- The dispatch answers for every word: it selects a row, or it is an unknown opcode (R120, R121). -/
theorem selects_or_unknown (w : Word) :
    (∃ op : Opcode, op.row.selects w = true) ∨ decode w = .error (.unknownOpcode w) := by
  unfold decode
  split
  case h_1 hc => exact selects_or_unknown_class0 hc
  case h_2 hc => exact .inl ⟨.jp, (selects_iff_of_class_mask rfl).mpr hc⟩
  case h_3 hc => exact .inl ⟨.call, (selects_iff_of_class_mask rfl).mpr hc⟩
  case h_4 hc => exact .inl ⟨.se, (selects_iff_of_class_mask rfl).mpr hc⟩
  case h_5 hc => exact .inl ⟨.sne, (selects_iff_of_class_mask rfl).mpr hc⟩
  case h_6 hc => exact .inl ⟨.ser, (selects_iff_of_class_mask rfl).mpr hc⟩
  case h_7 hc => exact .inl ⟨.ld, (selects_iff_of_class_mask rfl).mpr hc⟩
  case h_8 hc => exact .inl ⟨.add, (selects_iff_of_class_mask rfl).mpr hc⟩
  case h_9 hc => exact selects_or_unknown_class8 hc
  case h_10 hc => exact .inl ⟨.sner, (selects_iff_of_class_mask rfl).mpr hc⟩
  case h_11 hc => exact .inl ⟨.ldi, (selects_iff_of_class_mask rfl).mpr hc⟩
  case h_12 hc => exact .inl ⟨.drw, (selects_iff_of_class_mask rfl).mpr hc⟩
  case h_13 hc => exact selects_or_unknown_classF hc
  case h_14 => exact .inr rfl

/-- A word decodes to an instruction just when it selects the instruction's row and its fields are the
operands. -/
theorem decode_eq_ok_iff {w : Word} {i : Instr} :
    decode w = .ok i ↔ i.op.row.selects w = true ∧ i.op.instrOf w = i := by
  refine ⟨fun hd => ?_, fun ⟨hsel, hi⟩ => by rw [decode_of_selects hsel, hi]⟩
  obtain ⟨op, hsel⟩ | herr := selects_or_unknown w
  · obtain rfl : op.instrOf w = i := Except.ok.inj ((decode_of_selects hsel).symm.trans hd)
    rw [op.op_instrOf]
    exact ⟨hsel, rfl⟩
  · rw [herr] at hd
    cases hd

/-- A word selects at most one row, since it decodes to that row's instruction. -/
theorem opcode_eq_of_selects {a b : Opcode} {w : Word} (ha : a.row.selects w = true)
    (hb : b.row.selects w = true) : a = b := by
  have h : a.instrOf w = b.instrOf w :=
    Except.ok.inj ((decode_of_selects ha).symm.trans (decode_of_selects hb))
  rw [← a.op_instrOf w, h, b.op_instrOf]

/-- Words that give a row's instruction the same operands agree on the row's operand bits. -/
theorem and_operandBits_eq_of_instrOf_eq {op : Opcode} {w u : Word} (h : op.instrOf w = op.instrOf u) :
    w &&& op.operandBits = u &&& op.operandBits := by
  cases op with
  | cls | ret => simp [Opcode.operandBits]
  | jp | call | ldi => exact (and_0FFF_eq_iff w u).mpr (by simpa [Opcode.instrOf] using h)
  | se | sne | ld | add | drw =>
    simp only [Opcode.instrOf, Instr.se.injEq, Instr.sne.injEq, Instr.ld.injEq, Instr.add.injEq, Instr.drw.injEq,
      immByte_eq_iff] at h
    exact (and_0FFF_eq_iff w u).mpr ((address_eq_iff w u).mpr h)
  | ser | sner | mov | or | and | xor | addr | sub | subn =>
    exact (and_0FF0_eq_iff w u).mpr (by simpa [Opcode.instrOf] using h)
  | shr | shl | str | ldr => exact (and_0F00_eq_iff w u).mpr (by simpa [Opcode.instrOf] using h)

/-! ## The obligations -/

/-- Settles O3: the encoder's word selects the instruction's row, and its fields hold the operands. -/
theorem decodeOfEncodeIsTheInstruction : Obligations.DecodeOfEncodeIsTheInstruction :=
  fun i _ => decode_eq_ok_iff.mpr ⟨selects_encode i, instrOf_encode i⟩

/-- Settles O5: a word decodes to the instruction of every row it selects. -/
theorem opcodeRowsAreDisjoint : Obligations.OpcodeRowsAreDisjoint := by
  intro w r₁ h₁ r₂ h₂ hsel₁ hsel₂
  obtain ⟨a, rfl⟩ := mem_opcodeRows.mp h₁
  obtain ⟨b, rfl⟩ := mem_opcodeRows.mp h₂
  rw [opcode_eq_of_selects hsel₁ hsel₂]

/-- Settles O4: the row the scan finds is the one whose instruction the dispatch answers with, and where it
finds none the dispatch finds none. -/
theorem dispatchAgreesWithOpcodeTable : Obligations.DispatchAgreesWithOpcodeTable := by
  intro w
  unfold decodeByTable
  split
  next r hr =>
    obtain ⟨op, rfl⟩ := mem_opcodeRows.mp (List.mem_of_find?_eq_some hr)
    rw [op.row_op]
    exact decode_of_selects (List.find?_some (p := fun r : OpcodeRow => r.selects w) hr)
  next hnone =>
    refine (selects_or_unknown w).resolve_left fun ⟨op, hsel⟩ => ?_
    exact List.find?_eq_none.mp hnone _ (mem_opcodeRows.mpr ⟨op, rfl⟩) hsel

/-- Settles O6: both words select the row, which fixes the bits under its mask, and both give the same
operands, which fixes the operand bits. -/
theorem encodeOfDecodeDiffersInIgnoredBitsOnly : Obligations.EncodeOfDecodeDiffersInIgnoredBitsOnly := by
  intro w i hd
  obtain ⟨hsel, hi⟩ := decode_eq_ok_iff.mp hd
  have hfixed : encode i &&& i.op.row.mask = w &&& i.op.row.mask :=
    (selects_iff_and_eq_and.mp (selects_encode i)).trans (selects_iff_and_eq_and.mp hsel).symm
  have hoperand : encode i &&& i.op.operandBits = w &&& i.op.operandBits :=
    and_operandBits_eq_of_instrOf_eq ((instrOf_encode i).trans hi.symm)
  rw [BitVec.and_or_distrib_left, hfixed, hoperand, ← BitVec.and_or_distrib_left]

/-- Settles O1, by running the decoder on the eleven words. -/
theorem wordsOfTheTestVectorsDecode : Obligations.WordsOfTheTestVectorsDecode := by
  unfold Obligations.WordsOfTheTestVectorsDecode
  decide

end Sys2Proof
end

section
/-! Proofs about the execute cycle (spec/40_execute_cycle.md): when a cycle completes, and where pc stands
after it. -/

namespace Sys2Proof.Machine

/-! ## The instruction's own check (R147, R148) -/

/-- The information word is the lowest address accessed that lies above 0xFFF (R148). -/
theorem checkingRange_outOfBounds {base count : Nat} (goOn : Result)
    (h : ¬ (count = 0 ∨ base + count - 1 ≤ 0xFFF)) :
    checkingRange base count goOn = .fault (.memoryOutOfBounds (max base 0x1000)) := by
  have hfirst : firstOutOfBounds base count = some (max base 0x1000) :=
    firstOutOfBounds_eq_some.mpr (by omega)
  simp only [checkingRange, hfirst, raise]

section
variable {s : State} (x y : Reg)

theorem execDrw_outOfBounds {n : Nibble} (h : ¬ (n.toNat = 0 ∨ s.I.toNat + n.toNat - 1 ≤ 0xFFF)) :
    exec (.drw x y n) s = .fault (.memoryOutOfBounds (max s.I.toNat 0x1000)) :=
  checkingRange_outOfBounds _ h

theorem execStr_range_outOfBounds (hm : s.config.xferMode = .range) (h : ¬ s.I.toNat + x.toNat ≤ 0xFFF) :
    exec (.str x) s = .fault (.memoryOutOfBounds (max s.I.toNat 0x1000)) := by
  simp only [exec, execStr, hm]
  exact checkingRange_outOfBounds _ (by simpa [State.indexAddr, ← Nat.add_assoc] using h)

theorem execLdr_range_outOfBounds (hm : s.config.xferMode = .range) (h : ¬ s.I.toNat + x.toNat ≤ 0xFFF) :
    exec (.ldr x) s = .fault (.memoryOutOfBounds (max s.I.toNat 0x1000)) := by
  simp only [exec, execLdr, hm]
  exact checkingRange_outOfBounds _ (by simpa [State.indexAddr, ← Nat.add_assoc] using h)

end

/-- An instruction whose check fails raises a fatal condition. -/
theorem exec_fault_of_not_permitted {i : Instr} {s : State} (h : ¬ Permitted i s) :
    ∃ f, exec i s = .fault f := by
  cases i with
  | ret => exact ⟨_, execRet_underflow (not_not.mp h)⟩
  | call nnn => exact ⟨_, execCall_overflow nnn (not_not.mp h)⟩
  | drw x y n => exact ⟨_, execDrw_outOfBounds x y h⟩
  | str x =>
    cases hm : s.config.xferMode <;> simp only [Permitted, hm] at h
    · exact ⟨_, execStr_single_outOfBounds x hm h⟩
    · exact ⟨_, execStr_range_outOfBounds x hm h⟩
  | ldr x =>
    cases hm : s.config.xferMode <;> simp only [Permitted, hm] at h
    · exact ⟨_, execLdr_single_outOfBounds x hm h⟩
    · exact ⟨_, execLdr_range_outOfBounds x hm h⟩
  | _ => exact absurd trivial h

/-- An instruction whose check passes completes. -/
theorem exec_next_of_permitted {i : Instr} {s : State} (h : Permitted i s) : ∃ t, exec i s = .next t := by
  cases i with
  | ret => exact ⟨_, execRet_eq h⟩
  | call nnn => exact ⟨_, execCall_eq nnn h⟩
  | drw x y n => exact ⟨_, execDrw_eq x y n h⟩
  | str x =>
    cases hm : s.config.xferMode <;> simp only [Permitted, hm] at h
    · exact ⟨_, execStr_single x hm h⟩
    · exact ⟨_, execStr_range x hm h⟩
  | ldr x =>
    cases hm : s.config.xferMode <;> simp only [Permitted, hm] at h
    · exact ⟨_, execLdr_single x hm h⟩
    · exact ⟨_, execLdr_range x hm h⟩
  | _ => exact ⟨_, rfl⟩

/-- The model gives every instruction a meaning. -/
theorem exec_ne_refused (i : Instr) (s : State) (r : Refusal) : exec i s ≠ .refused r := by
  intro h
  by_cases hp : Permitted i s
  · obtain ⟨t, ht⟩ := exec_next_of_permitted hp
    exact nomatch ht.symm.trans h
  · obtain ⟨f, hf⟩ := exec_fault_of_not_permitted hp
    exact nomatch hf.symm.trans h

/-! ## When a cycle completes -/

theorem step_ne_refused (s : State) (r : Refusal) : step s ≠ .refused r := by
  rcases Nat.lt_or_ge 0xFFE s.pc.toNat with hpc | hpc
  · rw [step_of_pc_gt hpc]
    exact nofun
  · have hw := State.fetchWord_of_le hpc
    cases hd : decode (wordOfBytes (s.byteAt s.pc.toNat) (s.byteAt (s.pc.toNat + 1))) with
    | ok i =>
      rw [step_of_decode_ok hw hd]
      exact exec_ne_refused i s r
    | error e =>
      rw [step_of_decode_error hw hd]
      cases hp : s.config.unknownPolicy with
      | strict => rw [unknownOpcode_of_strict hp]; exact nofun
      | permissive => rw [unknownOpcode_of_permissive hp]; exact nofun

/-- Settles O10: a completed cycle is one of the two of `step_next_cases`, each of which completes when its
check passes; no arm of the cycle refuses. -/
theorem cycleCompletesExactlyWhenPermitted : Obligations.CycleCompletesExactlyWhenPermitted := by
  refine fun s => ⟨⟨fun ⟨t, h⟩ => ?_, fun ⟨w, hw, hcheck⟩ => ?_⟩, step_ne_refused s⟩
  case refine_1 =>
    obtain ⟨w, hw, ⟨i, hd, hi⟩ | ⟨e, hd, hp, -⟩⟩ := step_next_cases h
    · exact ⟨w, hw, .inl ⟨i, hd, permitted_of_exec_next hi⟩⟩
    · exact ⟨w, hw, .inr ⟨⟨e, hd⟩, hp⟩⟩
  case refine_2 =>
    obtain ⟨i, hd, hi⟩ | ⟨⟨e, hd⟩, hp⟩ := hcheck
    · rw [step_of_decode_ok hw hd]
      exact exec_next_of_permitted hi
    · rw [step_of_decode_error hw hd, unknownOpcode_of_permissive hp]
      exact ⟨_, rfl⟩

/-! ## The program counter (R143, R144) -/

/-- The four conditional skips (R144). -/
def skipOpcodes : List Opcode := [.se, .sne, .ser, .sner]

/-- A conditional skip is `skipIf` on its condition. -/
theorem exec_skip_eq {i : Instr} (s : State) (hi : i.op ∈ skipOpcodes) :
    ∃ c : Bool, (c = true ↔ SkipTaken i s) ∧ exec i s = .next (s.skipIf c) := by
  cases i with
  | se | ser => exact ⟨_, beq_iff_eq, rfl⟩
  | sne | sner => exact ⟨_, bne_iff_ne, rfl⟩
  | _ => simp [Instr.op, skipOpcodes] at hi

theorem op_mem_skipOpcodes_of_skipTaken {i : Instr} {s : State} (h : SkipTaken i s) :
    i.op ∈ skipOpcodes := by
  cases i with
  | se | sne | ser | sner => simp [Instr.op, skipOpcodes]
  | _ => exact h.elim

/-- Every shape but the transfers and the skips ends with the sequential advance. -/
theorem Effect.pc_eq {i : Instr} {s t : State} (h : Effect s i t)
    (hjump : i.op ∉ [Opcode.jp, Opcode.call, Opcode.ret]) (hskip : i.op ∉ skipOpcodes) :
    t.pc = s.pc + 2#16 := by
  cases h with
  | ret | jump | call => simp [Instr.op] at hjump
  | skip _ c hi => exact absurd hi hskip
  | _ => simp

/-- Settles O12: a skip by its condition, every other instruction and the unknown word by the advance. -/
theorem programCounterAdvancesByTwoOrSkipsByFour : Obligations.ProgramCounterAdvancesByTwoOrSkipsByFour := by
  intro s t w hw h
  refine ⟨fun i hd hjump => ?_, fun e hd => ?_⟩
  case refine_1 =>
    rw [step_of_decode_ok hw hd] at h
    by_cases hskip : i.op ∈ skipOpcodes
    · obtain ⟨c, hc, hexec⟩ := exec_skip_eq s hskip
      obtain rfl : s.skipIf c = t := Host.Outcome.next.inj (hexec.symm.trans h)
      rw [← hc, State.skipIf_pc]
      exact ⟨fun htaken => if_pos htaken, fun hnot => if_neg hnot⟩
    · have hpc := (effect_of_exec h).pc_eq hjump hskip
      exact ⟨fun htaken => absurd (op_mem_skipOpcodes_of_skipTaken htaken) hskip, fun _ => hpc⟩
  case refine_2 =>
    obtain ⟨u, hu, ⟨i, hi, -⟩ | ⟨-, -, -, rfl⟩⟩ := step_next_cases h
    · obtain rfl : w = u := Option.some.inj (hw.symm.trans hu)
      exact nomatch hd.symm.trans hi
    · rfl

end Sys2Proof.Machine
end

section
/-! Proofs about control transfer (spec/41_control_flow.md): jump, call and return, the conditional skips, and
the stack cell no call reaches. -/

namespace Sys2Proof.Machine

/-! ## Jump and skips (R162, R164 to R167) -/

theorem decode_of_and_mask_eq (op : Opcode) {w : Word} (h : w &&& op.row.mask = op.row.pattern) :
    decode w = .ok (op.instrOf w) :=
  decode_of_selects (beq_iff_eq.mpr h)

theorem toNat_zext16 (nnn : Addr) : (zext16 nnn).toNat = nnn.toNat :=
  BitVec.toNat_setWidth_of_le (by decide)

/-- The frame of an instruction that writes pc alone. -/
theorem keepsAllButRegs_setPc (s : State) (a : Word) :
    KeepsRegsBut [] s (s.setPc a) ∧ KeepsAllButRegs s (s.setPc a) :=
  ⟨fun _ _ => rfl, rfl, ⟨rfl, fun _ => rfl⟩, ⟨rfl, rfl, rfl⟩, fun _ => rfl, fun _ _ => rfl⟩

/-- Settles O23: JP writes pc alone. -/
theorem jumpSetsProgramCounter : Obligations.JumpSetsProgramCounter :=
  ⟨fun _ => decode_of_and_mask_eq .jp,
    fun s nnn => ⟨s.setPc (zext16 nnn), rfl, toNat_zext16 nnn, keepsAllButRegs_setPc s _⟩⟩

/-- A conditional skip has the result of R144 for any statement of its condition. -/
theorem skipResult_of_skipTaken_iff {i : Instr} {s : State} {condition : Prop} (hi : i.op ∈ skipOpcodes)
    (hcondition : SkipTaken i s ↔ condition) : SkipResult i s condition := by
  obtain ⟨c, hc, hexec⟩ := exec_skip_eq s hi
  rw [← hcondition, ← hc]
  exact ⟨s.skipIf c, hexec, fun htaken => if_pos htaken, fun hnot => if_neg hnot, keepsAllButRegs_setPc s _⟩

/-- Settles O27: both are skips, and bytes are equal just when they are as numbers. -/
theorem skipsComparingImmediate : Obligations.SkipsComparingImmediate :=
  ⟨fun _ => ⟨decode_of_and_mask_eq .se, decode_of_and_mask_eq .sne⟩, fun _ _ _ =>
    ⟨skipResult_of_skipTaken_iff (by simp [Instr.op, skipOpcodes]) BitVec.toNat_inj.symm,
      skipResult_of_skipTaken_iff (by simp [Instr.op, skipOpcodes]) (not_congr BitVec.toNat_inj.symm)⟩⟩

/-- Settles O28: both are skips; the class mask leaves the low nibble of the word out (D5). -/
theorem skipsComparingRegisters : Obligations.SkipsComparingRegisters :=
  ⟨fun _ => ⟨decode_of_and_mask_eq .ser, decode_of_and_mask_eq .sner⟩, fun _ _ _ =>
    ⟨skipResult_of_skipTaken_iff (by simp [Instr.op, skipOpcodes]) BitVec.toNat_inj.symm,
      skipResult_of_skipTaken_iff (by simp [Instr.op, skipOpcodes]) (not_congr BitVec.toNat_inj.symm)⟩⟩

/-! ## Call and return (R160, R161, R163) -/

section
variable {k : BitVec 4}

theorem sp_toNat_add_one (h : k ≠ 15#4) : (k + 1#4).toNat = k.toNat + 1 := by
  bv_omega

theorem sp_toNat_sub_one (h : k ≠ 0#4) : (k - 1#4).toNat + 1 = k.toNat := by
  bv_omega

theorem sp_add_one_ne_zero (h : k ≠ 15#4) : k + 1#4 ≠ 0#4 := by
  bv_omega

end

/-- What CALL and RET leave unchanged: the call stack and pc are all they write. -/
theorem keeps_of_stack_sp_pc (s : State) (stack : Vector Word 16) (sp : BitVec 4) (pc : Word) {t : State}
    (h : t = ((s.setStack stack).setSp sp).setPc pc) :
    t.I = s.I ∧ KeepsRegsBut [] s t ∧ KeepsTimers s t ∧ KeepsMem s t ∧ KeepsDisplay s t := by
  subst h
  exact ⟨rfl, fun _ _ => rfl, ⟨rfl, rfl, rfl⟩, fun _ => rfl, fun _ _ => rfl⟩

/-- Settles O24: below the limit by `execCall_eq`, the cells by what a written stack reads as. -/
theorem callPushesReturnAddressOrOverflows : Obligations.CallPushesReturnAddressOrOverflows := by
  refine ⟨fun _ => decode_of_and_mask_eq .call, fun s nnn => ⟨fun hsp => ?_, execCall_overflow nnn⟩⟩
  exact ⟨_, execCall_eq nnn hsp, (s.stackAt_setStack s.sp _ s.sp).trans (if_pos rfl),
    fun k hk => (s.stackAt_setStack s.sp _ k).trans (if_neg hk), sp_toNat_add_one hsp, toNat_zext16 nnn,
    keeps_of_stack_sp_pc s _ _ _ rfl⟩

/-- Settles O25: above 0 by `execRet_eq`, which writes no cell. -/
theorem returnPopsIntoProgramCounterOrUnderflows : Obligations.ReturnPopsIntoProgramCounterOrUnderflows := by
  refine ⟨fun _ => decode_of_and_mask_eq .ret, fun s => ⟨fun hsp => ?_, execRet_underflow⟩⟩
  exact ⟨_, execRet_eq hsp, rfl, sp_toNat_sub_one hsp, fun _ => rfl, keeps_of_stack_sp_pc s s.stack _ _ rfl⟩

/-- RET right after CALL leaves the written cell and the address after the call in pc. -/
theorem execRet_after_execCall (s : State) (nnn : Addr) (h : s.sp ≠ 15#4) :
    ∃ t, exec (.call nnn) s = .next t ∧ exec .ret t = .next
      (((s.setStack (s.stack.set s.sp.toNat (s.pc + 2#16) s.sp.isLt)).setSp s.sp).setPc (s.pc + 2#16)) := by
  refine ⟨_, execCall_eq nnn h, (execRet_eq (sp_add_one_ne_zero h)).trans ?_⟩
  simp only [State.setPc_sp, State.setSp_sp, BitVec.add_sub_cancel, State.stackAt_setPc, State.stackAt_setSp,
    State.stackAt_setStack, if_true]
  rfl

/-- Settles O26: the state after the two differs from the first in one cell and pc. -/
theorem returnUndoesCall : Obligations.ReturnUndoesCall := by
  intro s nnn hsp
  obtain ⟨t, hcall, hret⟩ := execRet_after_execCall s nnn hsp
  exact ⟨t, _, hcall, hret, rfl, rfl, fun k hk => (s.stackAt_setStack s.sp _ k).trans (if_neg hk),
    keeps_of_stack_sp_pc s _ _ _ rfl⟩

/-! ## The last stack cell (R163) -/

/-- CALL completes only with sp below 15, and no other instruction writes a cell. -/
theorem Effect.stackAt_last_eq {i : Instr} {s t : State} (h : Effect s i t) :
    t.stackAt 15#4 = s.stackAt 15#4 := by
  cases h with
  | call nnn hsp => exact (s.stackAt_setStack s.sp _ 15#4).trans (if_neg hsp.symm)
  | _ => exact State.stackAt_congr (by simp) _

theorem stackAt_last_step {s t : State} (h : step s = .next t) : t.stackAt 15#4 = s.stackAt 15#4 := by
  obtain ⟨w, -, ⟨i, -, hi⟩ | ⟨e, -, -, rfl⟩⟩ := step_next_cases h
  · exact (effect_of_exec hi).stackAt_last_eq
  · rfl

/-- `stack[15]` holds what `init` puts there. -/
def LastCellIsZero (s : State) : Prop := s.stackAt 15#4 = 0x0000#16

theorem lastCellIsZero_perform (op : Operation) {s : State} (hs : LastCellIsZero s) :
    LastCellIsZero (perform op s).1 := by
  cases op with
  | init => exact State.stackAt_init s.config 15#4
  | loadProgram image =>
    refine settle_keeps LastCellIsZero hs fun t h => ?_
    obtain ⟨-, rfl⟩ := loadProgram_next h
    exact (State.stackAt_congr (State.storeBytes_stack _ _ _) 15#4).trans hs
  | executeCycle => exact settle_keeps LastCellIsZero hs fun t h => (stackAt_last_step h).trans hs
  | tick => exact hs

/-- What holds after `init` and every operation keeps holds of every reachable state. -/
theorem of_reachable (P : State → Prop) (hinit : ∀ c, P (State.init c))
    (hkeep : ∀ op s, P s → P (perform op s).1) {s : State} (h : Reachable s) : P s := by
  obtain ⟨c, ops, -, rfl⟩ := h
  exact operateAll_keeps (fun d => P d.machine)
    (fun op d hd => operate_machine_keeps P op hd (hkeep op d.machine hd)) ops (hinit c)

/-- Settles O15: no completed instruction writes the cell, and it is 0 after `init`. -/
theorem lastStackCellIsNeverWritten : Obligations.LastStackCellIsNeverWritten :=
  ⟨fun _ _ _ h => (effect_of_exec h).stackAt_last_eq, fun _ =>
    of_reachable LastCellIsZero (State.stackAt_init · 15#4) fun op _ => lastCellIsZero_perform op⟩

end Sys2Proof.Machine
end

section
/-! Proofs about immediate and index loads (spec/42_immediate_and_index.md): LD and ADD write one register,
LDI writes I, and no other instruction writes I. -/

namespace Sys2Proof.Machine

/-! ## Immediate loads (R180, R181) -/

/-- An instruction that writes one register and advances leaves everything else unchanged. -/
theorem regResult_of_exec_eq {i : Instr} {s : State} {x : Reg} {b : Byte}
    (h : exec i s = .next (s.setV x b).advance) : RegResult i s x b.toNat := by
  refine ⟨_, h, congrArg BitVec.toNat (s.getV_setV_self x b), fun r hr => ?_, rfl,
    rfl, ⟨rfl, fun _ => rfl⟩, ⟨rfl, rfl, rfl⟩, fun _ => rfl, fun _ _ => rfl⟩
  exact (s.getV_setV x b r).trans (if_neg (List.mem_singleton.not.mp hr))

theorem toNat_addMod (a b : Byte) : (addMod a b).toNat = (a.toNat + b.toNat) % 256 :=
  (BitVec.toNat_ofNat _ 8).trans (Nat.mod_mod _ 256)

/-- Settles O16: LD is the write of the immediate byte. -/
theorem loadImmediateSetsTheRegister : Obligations.LoadImmediateSetsTheRegister :=
  ⟨fun _ => decode_of_and_mask_eq .ld, fun _ _ _ => regResult_of_exec_eq rfl⟩

/-- Settles O17: ADD is the write of the wrapped sum, and of no flag. -/
theorem addImmediateWrapsAndWritesNoFlag : Obligations.AddImmediateWrapsAndWritesNoFlag := by
  refine ⟨fun _ => decode_of_and_mask_eq .add, fun s x kk => ?_⟩
  rw [← toNat_addMod]
  exact regResult_of_exec_eq rfl

/-! ## The index load (R182, R22) -/

theorem exists_eq_ldi_of_op {i : Instr} (h : i.op = .ldi) : ∃ nnn, i = .ldi nnn := by
  cases i with
  | ldi nnn => exact ⟨nnn, rfl⟩
  | _ => cases h

/-- The frame of an instruction that writes I and advances. -/
theorem keeps_of_setI_advance (s : State) (a : Word) :
    KeepsRegsBut [] s (s.setI a).advance ∧ KeepsStack s (s.setI a).advance ∧ KeepsTimers s (s.setI a).advance ∧
      KeepsMem s (s.setI a).advance ∧ KeepsDisplay s (s.setI a).advance :=
  ⟨fun _ _ => rfl, ⟨rfl, fun _ => rfl⟩, ⟨rfl, rfl, rfl⟩, fun _ => rfl, fun _ _ => rfl⟩

/-- Settles O18: LDI writes the zero-extended operand, and every other completed instruction has a shape that
leaves I alone. -/
theorem loadIndexSetsIndex : Obligations.LoadIndexSetsIndex := by
  refine ⟨fun _ => decode_of_and_mask_eq .ldi, fun s nnn => ?_, fun i s t hi h => ?_⟩
  case refine_1 =>
    exact ⟨_, rfl, toNat_zext16 nnn, Nat.lt_succ_of_le (zext16_le nnn), rfl, keeps_of_setI_advance s _⟩
  case refine_2 =>
    have hop : i.op ≠ .ldi := fun hldi => by
      obtain ⟨nnn, hnnn⟩ := exists_eq_ldi_of_op hldi
      exact hi nnn hnnn
    exact (effect_of_exec h).I_eq hop

end Sys2Proof.Machine
end

section
/-! Proofs about the register-register ALU (spec/43_alu.md): MOV and the logic operations write one register,
the others a flag and then their result. -/

namespace Sys2Proof.Machine

/-! ## Flag and result (R190, R200) -/

/-- An instruction that writes a flag, then its result, and advances leaves everything else unchanged; with
x = 15 the result is what stays (D4). -/
theorem flagResult_of_exec_eq {i : Instr} {s : State} {flag : Bool} {x : Reg} {b : Byte} {condition : Prop}
    [Decidable condition] {n : Nat} (h : exec i s = .next (s.setFlagThen flag x b).advance)
    (hflag : flag = true ↔ condition) (hn : b.toNat = n) :
    FlagResult i s (if condition then 1 else 0) x n := by
  have hget := s.getV_setFlagThen flag x b
  refine ⟨_, h, ?result, fun hx => ?flag, fun r hr => ?others, rfl,
    rfl, ⟨rfl, fun _ => rfl⟩, ⟨rfl, rfl, rfl⟩, fun _ => rfl, fun _ _ => rfl⟩
  case result => simp [hget, hn]
  case flag => simp [hget, hx.symm, flagByte, hflag, apply_ite BitVec.toNat]
  case others =>
    obtain ⟨hrx, hrF⟩ : r ≠ x ∧ r ≠ vF := by simpa using hr
    simp [hget, hrx, hrF]

theorem toNat_ofNat_mod_256 (n : Nat) : (BitVec.ofNat 8 (n % 256)).toNat = n % 256 :=
  (BitVec.toNat_ofNat _ 8).trans (Nat.mod_mod n 256)

theorem toNat_subMod (a b : Byte) : (subMod a b).toNat =
    if a.toNat ≥ b.toNat then a.toNat - b.toNat else a.toNat + 256 - b.toNat := by
  rw [subMod, toNat_ofNat_mod_256]
  split <;> omega

theorem toNat_shiftRight1 (a : Byte) : (shiftRight1 a).toNat = a.toNat / 2 :=
  (BitVec.toNat_ofNat _ 8).trans (Nat.mod_eq_of_lt (by omega))

theorem toNat_shiftLeft1 (a : Byte) : (shiftLeft1 a).toNat = 2 * a.toNat % 256 :=
  toNat_ofNat_mod_256 _

theorem lowBit_eq_getLsbD (a : Byte) : lowBit a = a.getLsbD 0 :=
  (Nat.testBit_zero a.toNat).symm

theorem highBit_eq_getLsbD (a : Byte) : highBit a = a.getLsbD 7 := by
  have hlast : a.getLsbD 7 = decide (128 ≤ a.toNat) :=
    (BitVec.msb_eq_getLsbD_last a).symm.trans (BitVec.msb_eq_decide a)
  rw [hlast, highBit, decide_eq_decide]
  omega

/-! ## The instructions (R191 to R199) -/

/-- Settles O20: the flag is the carry out of the latched operands' sum, the result the wrapped sum. -/
theorem addRegistersSetsCarryThenSum : Obligations.AddRegistersSetsCarryThenSum :=
  ⟨fun _ => decode_of_and_mask_eq .addr, fun _ _ _ =>
    flagResult_of_exec_eq rfl decide_eq_true_iff (toNat_addMod _ _)⟩

/-- Settles O21: both write `noBorrow` and `subMod` of the latched operands, SUBN with the operands exchanged. -/
theorem subtractsSetNoBorrowThenDifference : Obligations.SubtractsSetNoBorrowThenDifference :=
  ⟨fun _ => ⟨decode_of_and_mask_eq .sub, decode_of_and_mask_eq .subn⟩, fun _ _ _ =>
    ⟨flagResult_of_exec_eq rfl decide_eq_true_iff (toNat_subMod _ _),
      flagResult_of_exec_eq rfl decide_eq_true_iff (toNat_subMod _ _)⟩⟩

/-- Settles O22: the flag is the bit at the end the shift moves towards; the nibble mask leaves regY out (D5). -/
theorem shiftsSetTheBitShiftedOutThenResult : Obligations.ShiftsSetTheBitShiftedOutThenResult :=
  ⟨fun _ => ⟨decode_of_and_mask_eq .shr, decode_of_and_mask_eq .shl⟩, fun s x =>
    ⟨flagResult_of_exec_eq rfl (Bool.eq_iff_iff.mp (lowBit_eq_getLsbD (s.getV x))) (toNat_shiftRight1 _),
      flagResult_of_exec_eq rfl (Bool.eq_iff_iff.mp (highBit_eq_getLsbD (s.getV x))) (toNat_shiftLeft1 _)⟩⟩

/-- Settles O19: each is the write of one register, and the bitwise operations are those of the numbers. -/
theorem moveAndLogicWriteTheResultOnly : Obligations.MoveAndLogicWriteTheResultOnly := by
  refine ⟨fun _ => ⟨decode_of_and_mask_eq .mov, decode_of_and_mask_eq .or, decode_of_and_mask_eq .and,
    decode_of_and_mask_eq .xor⟩, fun s x y => ?_⟩
  rw [← BitVec.toNat_or, ← BitVec.toNat_and, ← BitVec.toNat_xor]
  exact ⟨regResult_of_exec_eq rfl, regResult_of_exec_eq rfl, regResult_of_exec_eq rfl, regResult_of_exec_eq rfl⟩

end Sys2Proof.Machine
end

section
/-! Proofs about the display (spec/44_display.md): the blit loop is the XOR with a mask of cells, pixel by pixel,
row by row and as a whole, and CLS and DRW are read off from that. -/

namespace Sys2Proof.Machine

/-! ## The blit loop as the XOR with a mask (R212, R213) -/

/-- From `acc` to `acc'` the cells under the mask are flipped, and a collision is added if one of them was lit:
what any part of the blit loop does, with the mask of its sprite bits. -/
structure XorsMask (mask : Fin 64 → Fin 32 → Bool) (acc acc' : Display × Bool) : Prop where
  cell : ∀ x y, acc'.1.cell x y = (acc.1.cell x y ^^ mask x y)
  collision : acc'.2 = true ↔ acc.2 = true ∨ ∃ x y, acc.1.cell x y = true ∧ mask x y = true

/-- A part of the loop without a sprite bit 1 does nothing. -/
theorem XorsMask.of_mask_eq_false {mask : Fin 64 → Fin 32 → Bool} (h : ∀ x y, mask x y = false)
    (acc : Display × Bool) : XorsMask mask acc acc :=
  ⟨by simp [h], by simp [h]⟩

/-- Two parts one after the other are one part, if no cell is under both masks: the first has then not changed
the cells the second looks at. -/
theorem XorsMask.trans {m₁ m₂ mask : Fin 64 → Fin 32 → Bool} {acc acc₁ acc₂ : Display × Bool}
    (h₁ : XorsMask m₁ acc acc₁) (h₂ : XorsMask m₂ acc₁ acc₂) (hmask : ∀ x y, mask x y = (m₁ x y || m₂ x y))
    (hdisj : ∀ x y, m₁ x y = true → m₂ x y = false) : XorsMask mask acc acc₂ := by
  have hlit : ∀ x y, m₂ x y = true → acc₁.1.cell x y = acc.1.cell x y := fun x y hm => by
    have hm₁ : m₁ x y = false :=
      Bool.eq_false_iff.mpr fun h => Bool.eq_false_iff.mp (hdisj x y h) hm
    rw [h₁.cell, hm₁, Bool.xor_false]
  refine ⟨fun x y => ?cell, ?collision⟩
  case cell =>
    rw [h₂.cell, h₁.cell, hmask, Bool.xor_assoc]
    cases hm : m₁ x y
    · simp
    · simp [hdisj x y hm]
  case collision =>
    rw [h₂.collision, h₁.collision, or_assoc, ← exists_or]
    refine or_congr_right (exists_congr fun x => ?_)
    rw [← exists_or]
    refine exists_congr fun y => ?_
    simp only [hmask, Bool.or_eq_true, and_or_left]
    exact or_congr_right (and_congr_left fun hm => by rw [hlit x y hm])

theorem xorsMask_blitPixel (bit : Bool) (x : Fin 64) (y : Fin 32) (acc : Display × Bool) :
    XorsMask (fun px py => bit && decide (px = x ∧ py = y)) acc (blitPixel bit x y acc) := by
  refine ⟨blitPixel_cell bit x y acc, ?_⟩
  simp only [blitPixel_collision, Bool.or_eq_true, Bool.and_eq_true, decide_eq_true_eq]
  refine or_congr_right ⟨fun ⟨hbit, hlit⟩ => ⟨x, y, hlit, hbit, rfl, rfl⟩, ?_⟩
  rintro ⟨_, _, hlit, hbit, rfl, rfl⟩
  exact ⟨hbit, hlit⟩

/-! ## Where a cell lies in the sprite (R213) -/

/-- The column of a sprite at `x0` that a cell lies in, around the edge. -/
def spriteColumn (x0 : Byte) (x : Fin 64) : Nat := (x.val + 256 - x0.toNat) % 64

/-- The row of a sprite at `y0` that a cell lies in, around the edge. -/
def spriteRow (y0 : Byte) (y : Fin 32) : Nat := (y.val + 256 - y0.toNat) % 32

theorem eq_pixelColumn_iff {x0 : Byte} {x : Fin 64} {col : Nat} (h : col < 64) :
    x = pixelColumn x0 col ↔ spriteColumn x0 x = col := by
  simp only [pixelColumn, spriteColumn, Fin.ext_iff, Fin.val_ofNat]
  omega

theorem eq_pixelRow_iff {y0 : Byte} {y : Fin 32} {r : Nat} (h : r < 32) :
    y = pixelRow y0 r ↔ spriteRow y0 y = r := by
  simp only [pixelRow, spriteRow, Fin.ext_iff, Fin.val_ofNat]
  omega

/-- The bits that `blitColumns` draws of one row, cell by cell. -/
def columnsMask (x0 : Byte) (y : Fin 32) (row : Byte) (col count : Nat) (px : Fin 64) (py : Fin 32) : Bool :=
  decide (py = y ∧ col ≤ spriteColumn x0 px ∧ spriteColumn x0 px < col + count) &&
    rowBit row (spriteColumn x0 px)

/-- The bits that `blitRows` draws, cell by cell; below the last row there is none. -/
def rowsMask (x0 y0 : Byte) (r : Nat) (rows : List Byte) (px : Fin 64) (py : Fin 32) : Bool :=
  decide (spriteColumn x0 px < 8 ∧ r ≤ spriteRow y0 py) &&
    rowBit (rows.getD (spriteRow y0 py - r) 0x00#8) (spriteColumn x0 px)

@[simp] theorem rowBit_zero (col : Nat) : rowBit 0x00#8 col = false := BitVec.getLsbD_zero

theorem spriteBit_eq (x0 y0 : Byte) (rows : List Byte) (x : Fin 64) (y : Fin 32) :
    spriteBit x0 y0 rows x y = (decide (spriteColumn x0 x < 8) && decide (spriteRow y0 y < rows.length) &&
      rowBit (rows.getD (spriteRow y0 y) 0x00#8) (spriteColumn x0 x)) :=
  rfl

theorem rowsMask_eq_spriteBit (x0 y0 : Byte) (rows : List Byte) :
    rowsMask x0 y0 0 rows = spriteBit x0 y0 rows := by
  funext px py
  by_cases h : spriteRow y0 py < rows.length
  · simp [rowsMask, spriteBit_eq, h]
  · simp [rowsMask, spriteBit_eq, Nat.le_of_not_lt h]

/-! ## The columns of a row, the rows of a sprite -/

/-- By induction on the number of columns left; each pixel lies left of the rest. -/
theorem xorsMask_blitColumns (x0 : Byte) (y : Fin 32) (row : Byte) {col count : Nat} (h : col + count ≤ 64)
    (acc : Display × Bool) :
    XorsMask (columnsMask x0 y row col count) acc (blitColumns x0 y row col count acc) := by
  induction count generalizing col acc with
  | zero =>
    refine .of_mask_eq_false (fun px py => ?_) acc
    have hnone : ¬ (py = y ∧ col ≤ spriteColumn x0 px ∧ spriteColumn x0 px < col + 0) := by omega
    rw [columnsMask, decide_eq_false hnone, Bool.false_and]
  | succ count ih =>
    refine (xorsMask_blitPixel (rowBit row col) (pixelColumn x0 col) y acc).trans
      (ih (by omega) _) (fun px py => ?union) fun px py => ?disjoint
    all_goals simp only [columnsMask, eq_pixelColumn_iff (show col < 64 by omega)]
    case union =>
      by_cases hcol : spriteColumn x0 px = col
      · simp [hcol, Bool.and_comm]
      · have hsplit : (col ≤ spriteColumn x0 px ∧ spriteColumn x0 px < col + (count + 1)) ↔
            (col + 1 ≤ spriteColumn x0 px ∧ spriteColumn x0 px < col + 1 + count) := by omega
        simp [hcol, hsplit]
    case disjoint =>
      simp only [Bool.and_eq_true, decide_eq_true_eq]
      rintro ⟨-, hcol, -⟩
      simp [hcol]

/-- By induction on the rows; the first row lies above the rest. -/
theorem xorsMask_blitRows (x0 y0 : Byte) {r : Nat} {rows : List Byte} (h : r + rows.length ≤ 32)
    (acc : Display × Bool) : XorsMask (rowsMask x0 y0 r rows) acc (blitRows x0 y0 r rows acc) := by
  induction rows generalizing r acc with
  | nil => exact .of_mask_eq_false (by simp [rowsMask]) acc
  | cons row rows ih =>
    have hr : r + 1 + rows.length ≤ 32 := by simpa [Nat.add_assoc, Nat.add_comm] using h
    refine (xorsMask_blitColumns x0 (pixelRow y0 r) row (by decide) acc).trans (ih hr _)
      (fun px py => ?union) fun px py => ?disjoint
    all_goals simp only [columnsMask, rowsMask, eq_pixelRow_iff (show r < 32 by omega)]
    case union =>
      by_cases hrow : spriteRow y0 py = r
      · simp [hrow]
      · by_cases hbelow : r ≤ spriteRow y0 py
        · have hnext : r + 1 ≤ spriteRow y0 py := by omega
          have hindex : spriteRow y0 py - r = spriteRow y0 py - (r + 1) + 1 := by omega
          simp [hrow, hnext, hbelow, hindex]
        · have hnext : ¬ r + 1 ≤ spriteRow y0 py := by omega
          simp [hrow, hbelow, hnext]
    case disjoint =>
      simp only [Bool.and_eq_true, decide_eq_true_eq]
      rintro ⟨⟨hrow, -⟩, -⟩
      simp [hrow]

/-! ## The whole blit (R212, R214, R215) -/

section
variable {rows : List Byte} (d : Display) (x0 y0 : Byte) (hrows : rows.length ≤ 15)
include hrows

theorem xorsMask_blit : XorsMask (spriteBit x0 y0 rows) (d, false) (blit d x0 y0 rows) :=
  rowsMask_eq_spriteBit x0 y0 rows ▸ xorsMask_blitRows x0 y0 (by omega) (d, false)

theorem blit_cell (x : Fin 64) (y : Fin 32) :
    (blit d x0 y0 rows).1.cell x y = (d.cell x y ^^ spriteBit x0 y0 rows x y) :=
  (xorsMask_blit d x0 y0 hrows).cell x y

theorem blit_collision_iff :
    (blit d x0 y0 rows).2 = true ↔ ∃ x y, d.cell x y = true ∧ spriteBit x0 y0 rows x y = true := by
  simpa using (xorsMask_blit d x0 y0 hrows).collision

/-- A lit cell is unlit after the blit exactly when it lies under a 1. -/
theorem blit_collision_iff_turned_unlit :
    (blit d x0 y0 rows).2 = true ↔ ∃ x y, d.cell x y = true ∧ (blit d x0 y0 rows).1.cell x y = false := by
  rw [blit_collision_iff d x0 y0 hrows]
  refine exists_congr fun x => exists_congr fun y => and_congr_right fun hlit => ?_
  simp [blit_cell d x0 y0 hrows, hlit]

theorem blit_blit : (blit (blit d x0 y0 rows).1 x0 y0 rows).1 = d :=
  Display.ext_cell fun x y => by
    rw [blit_cell _ x0 y0 hrows, blit_cell d x0 y0 hrows, Bool.xor_assoc, Bool.xor_self, Bool.xor_false]

/-- Under a 1 the first blit has turned the cell, so the second finds lit what was unlit. -/
theorem blit_blit_collision_iff : (blit (blit d x0 y0 rows).1 x0 y0 rows).2 = true ↔
    ∃ x y, spriteBit x0 y0 rows x y = true ∧ d.cell x y = false := by
  rw [blit_collision_iff _ x0 y0 hrows]
  refine exists_congr fun x => exists_congr fun y => and_comm.trans (and_congr_right fun hbit => ?_)
  simp [blit_cell d x0 y0 hrows, hbit]

end

/-- Settles O30: the mask of the whole loop is the closed form of the sprite bit. -/
theorem blitIsCellwiseXorOfTheSprite : Obligations.BlitIsCellwiseXorOfTheSprite :=
  fun d x0 y0 _ hrows => ⟨blit_cell d x0 y0 hrows, blit_collision_iff d x0 y0 hrows⟩

/-! ## The flag byte (R149) -/

section
variable (b : Bool)

theorem toNat_flagByte_eq_one_iff : (flagByte b).toNat = 1 ↔ b = true := by
  cases b <;> simp [flagByte]

theorem toNat_flagByte_eq_zero_iff : (flagByte b).toNat = 0 ↔ ¬ b = true := by
  cases b <;> simp [flagByte]

theorem toNat_flagByte_le_one : (flagByte b).toNat ≤ 1 := by
  cases b <;> simp [flagByte]

end

/-! ## CLS and DRW (R210, R211) -/

/-- A nibble counts at most 15 rows (R211). -/
theorem State.length_bytesFrom_nibble_le (s : State) (a : Nat) (n : Nibble) :
    (s.bytesFrom a n.toNat).length ≤ 15 :=
  (s.length_bytesFrom a n.toNat).trans_le (Nat.le_of_lt_succ n.isLt)

/-- What a completed DRW leaves in the display and in vF. -/
theorem disp_vF_of_exec_drw {s t : State} {x y : Reg} {n : Nibble} (h : exec (.drw x y n) s = .next t) :
    t.disp = (s.drawn x y n).1 ∧ t.getV vF = flagByte (s.drawn x y n).2 := by
  rw [execDrw_eq x y n (permitted_of_exec_next h)] at h
  obtain rfl := Host.Outcome.next.inj h
  exact ⟨rfl, State.getV_setV_self _ _ _⟩

theorem cell_of_exec_cls {s t : State} (h : exec .cls s = .next t) (x : Fin 64) (y : Fin 32) :
    t.disp.cell x y = false := by
  obtain rfl := Host.Outcome.next.inj h
  exact Display.cell_clear x y

/-- Settles O31: vF holds the collision bit of the blit, and a lit cell is turned exactly under a 1. -/
theorem collisionIsALitCellTurnedUnlit : Obligations.CollisionIsALitCellTurnedUnlit := by
  refine ⟨fun d x0 y0 _ hrows => blit_collision_iff_turned_unlit d x0 y0 hrows, fun s t x y n h => ?_⟩
  obtain ⟨hdisp, hflag⟩ := disp_vF_of_exec_drw h
  have hcollision := blit_collision_iff_turned_unlit s.disp (s.getV x) (s.getV y)
    (s.length_bytesFrom_nibble_le s.indexAddr n)
  rw [hdisp, hflag, toNat_flagByte_eq_one_iff, toNat_flagByte_eq_zero_iff]
  exact ⟨hcollision, not_congr hcollision⟩

/-- Settles O32: the mask cancels against itself, and CLS leaves nothing lit whatever was drawn. -/
theorem drawingTwiceRestoresTheDisplay : Obligations.DrawingTwiceRestoresTheDisplay := by
  refine ⟨fun d x0 y0 _ hrows => ⟨blit_blit d x0 y0 hrows, ?_, blit_blit_collision_iff d x0 y0 hrows⟩,
    fun _ _ _ _ _ _ _ _ _ hcls => cell_of_exec_cls hcls⟩
  simpa only [and_comm] using blit_collision_iff d x0 y0 hrows

/-- The frame of an instruction that writes the display, vF and pc. -/
theorem keeps_of_setDisp_setV_advance (s : State) (d : Display) (b : Byte) {t : State}
    (h : t = ((s.setDisp d).setV vF b).advance) :
    t.pc = s.pc + 2#16 ∧ t.I = s.I ∧ KeepsRegsBut [vF] s t ∧ KeepsStack s t ∧ KeepsTimers s t ∧
      KeepsMem s t := by
  subst h
  refine ⟨rfl, rfl, fun r hr => ?_, ⟨rfl, fun _ => rfl⟩, ⟨rfl, rfl, rfl⟩, fun _ => rfl⟩
  exact ((s.setDisp d).getV_setV vF b r).trans (if_neg (List.mem_singleton.not.mp hr))

/-- Settles O33: DRW is the blit of the rows at I, with its collision bit in vF. -/
theorem drawXorsTheSpriteAndSetsCollision : Obligations.DrawXorsTheSpriteAndSetsCollision := by
  refine ⟨fun _ => decode_of_and_mask_eq .drw, fun s x y n hn => ?_⟩
  have hexec := execDrw_eq x y n hn
  obtain ⟨hdisp, hflag⟩ := disp_vF_of_exec_drw hexec
  have hrows := s.length_bytesFrom_nibble_le s.I.toNat n
  refine ⟨_, hexec, fun px py => ?cells, ?flag, ?bound, keeps_of_setDisp_setV_advance s _ _ rfl⟩
  case cells =>
    rw [hdisp]
    exact blit_cell s.disp _ _ hrows px py
  case flag =>
    rw [hflag, toNat_flagByte_eq_one_iff]
    exact blit_collision_iff s.disp _ _ hrows
  case bound =>
    rw [hflag]
    exact toNat_flagByte_le_one _

/-- Settles O29: CLS replaces the display and advances; the nibble mask leaves bits 11-4 out (D5). -/
theorem clearScreenUnlightsEveryCell : Obligations.ClearScreenUnlightsEveryCell :=
  ⟨fun _ => decode_of_and_mask_eq .cls, fun _ =>
    ⟨_, rfl, Display.cell_clear, rfl, rfl, fun _ _ => rfl, ⟨rfl, fun _ => rfl⟩, ⟨rfl, rfl, rfl⟩, fun _ => rfl⟩⟩

end Sys2Proof.Machine
end

section
/-! Proofs about memory transfer (spec/45_memory_transfer.md): the bytes a store puts in memory, the registers a
load writes, what both leave unchanged, and a load after a store. -/

namespace Sys2Proof.Machine

/-! ## The frames of STR and LDR (R230, R231, R233) -/

section
variable {s t : State}

theorem keepsStack_of_eq (h : t.sp = s.sp ∧ t.stack = s.stack) : KeepsStack s t :=
  ⟨h.1, State.stackAt_congr h.2⟩

theorem keepsDisplay_of_eq (h : t.disp = s.disp) : KeepsDisplay s t :=
  fun x y => congrArg (Display.cell · x y) h

theorem keepsMem_of_eq (hmem : t.mem = s.mem) (hconfig : t.config = s.config) : KeepsMem s t :=
  fun a => by rw [State.byteAt, State.byteAt, hmem, hconfig]

/-- STR writes memory and pc alone. -/
theorem keeps_of_execStr {x : Reg} (h : exec (.str x) s = .next t) :
    t.pc = s.pc + 2#16 ∧ t.I = s.I ∧ KeepsRegsBut [] s t ∧ KeepsStack s t ∧ KeepsTimers s t ∧
      KeepsDisplay s t := by
  have he := effect_of_exec h
  exact ⟨he.pc_eq (by simp [Instr.op]) (by simp [Instr.op, skipOpcodes]), he.I_eq nofun,
    fun r _ => he.getV_eq r id fun _ => by simp [Instr.op, flagWriters],
    keepsStack_of_eq (he.stack_eq (by simp [Instr.op])), he.keepsTimers,
    keepsDisplay_of_eq (he.disp_eq (by simp [Instr.op]))⟩

/-- LDR writes registers and pc alone. -/
theorem keeps_of_execLdr {x : Reg} (h : exec (.ldr x) s = .next t) :
    t.pc = s.pc + 2#16 ∧ KeepsAllButRegs s t := by
  have he := effect_of_exec h
  obtain ⟨hDT, hST, hconfig⟩ := he.keepsTimers
  exact ⟨he.pc_eq (by simp [Instr.op]) (by simp [Instr.op, skipOpcodes]), he.I_eq nofun,
    keepsStack_of_eq (he.stack_eq (by simp [Instr.op])), ⟨hDT, hST, hconfig⟩,
    keepsMem_of_eq (he.mem_eq nofun) hconfig, keepsDisplay_of_eq (he.disp_eq (by simp [Instr.op]))⟩

end

/-! ## How many bytes a transfer moves (spec/20_memory.md R87) -/

section
variable {s : State} {x : Reg}

theorem transferCount_of_single (hm : s.config.xferMode = .single) : s.transferCount x = 1 := by
  simp only [State.transferCount, hm]

theorem transferCount_of_range (hm : s.config.xferMode = .range) : s.transferCount x = x.toNat + 1 := by
  simp only [State.transferCount, hm]

/-- A transfer whose last address exists is permitted. -/
theorem permitted_transfer_of_le (h : s.indexAddr + (s.transferCount x - 1) ≤ 0xFFF) :
    Permitted (.str x) s ∧ Permitted (.ldr x) s := by
  cases hm : s.config.xferMode with
  | single =>
    rw [transferCount_of_single hm] at h
    simp only [Permitted, hm]
    exact ⟨h, h⟩
  | range =>
    rw [transferCount_of_range hm] at h
    simp only [Permitted, hm]
    exact ⟨h, h⟩

end

/-! ## What STR stores (R230) -/

section
variable {s t : State} {x : Reg}

theorem byteAt_of_execStr_single (hm : s.config.xferMode = .single) (h : exec (.str x) s = .next t) :
    t.byteAt s.I.toNat = s.getV x := by
  obtain ⟨-, hbyte⟩ := pc_byteAt_of_execStr h
  rw [hbyte, transferCount_of_single hm, if_pos (by omega)]
  simp only [State.storedByte, hm]

theorem byteAt_of_execStr_range (hm : s.config.xferMode = .range) (h : exec (.str x) s = .next t) {r : Reg}
    (hr : r.toNat ≤ x.toNat) : t.byteAt (s.I.toNat + r.toNat) = s.getV r := by
  obtain ⟨-, hbyte⟩ := pc_byteAt_of_execStr h
  rw [hbyte, transferCount_of_range hm, if_pos (by omega)]
  simp only [State.storedByte, hm, Nat.add_sub_cancel_left, BitVec.ofNat_toNat, BitVec.setWidth_eq]

theorem keepsMemOutside_of_execStr (h : exec (.str x) s = .next t) :
    KeepsMemOutside s.indexAddr (s.transferCount x) s t := by
  obtain ⟨-, hbyte⟩ := pc_byteAt_of_execStr h
  intro a ha
  rw [State.indexAddr] at ha
  rw [hbyte, if_neg (by omega)]

end

/-- Settles O36: a permitted store completes, and its bytes and its frame are those of any completed store. -/
theorem storeWritesRegistersFromIndex : Obligations.StoreWritesRegistersFromIndex := by
  refine ⟨fun _ => decode_of_and_mask_eq .str, fun s x hbound => ?_⟩
  obtain ⟨t, h⟩ := exec_next_of_permitted (permitted_transfer_of_le hbound).1
  exact ⟨t, h, fun hm => ⟨byteAt_of_execStr_single hm h, transferCount_of_single hm⟩,
    fun hm => ⟨transferCount_of_range hm, fun _ => byteAt_of_execStr_range hm h⟩,
    keepsMemOutside_of_execStr h, keeps_of_execStr h⟩

/-! ## What LDR loads (R231) -/

section
variable {s t : State} {x : Reg}

theorem getV_of_execLdr_single (hm : s.config.xferMode = .single) (h : exec (.ldr x) s = .next t) (r : Reg) :
    t.getV r = if r = x then s.byteAt s.I.toNat else s.getV r := by
  have hI := permitted_of_exec_next h
  simp only [Permitted, hm] at hI
  obtain rfl := Host.Outcome.next.inj ((execLdr_single x hm hI).symm.trans h)
  exact State.getV_setV s x _ r

theorem getV_of_execLdr_range (hm : s.config.xferMode = .range) (h : exec (.ldr x) s = .next t) (r : Reg) :
    t.getV r = if r.toNat ≤ x.toNat then s.byteAt (s.I.toNat + r.toNat) else s.getV r := by
  have hI := permitted_of_exec_next h
  simp only [Permitted, hm] at hI
  obtain rfl := Host.Outcome.next.inj ((execLdr_range x hm hI).symm.trans h)
  exact State.getV_loadRegs s x r s.I.toNat

end

/-- Settles O37: a permitted load completes, and its registers and its frame are those of any completed load. -/
theorem loadReadsRegistersFromIndex : Obligations.LoadReadsRegistersFromIndex := by
  refine ⟨fun _ => decode_of_and_mask_eq .ldr, fun s x hbound => ?_⟩
  obtain ⟨t, h⟩ := exec_next_of_permitted (permitted_transfer_of_le hbound).2
  refine ⟨t, h, fun hm => ⟨?value, fun r hr => ?frame⟩, fun hm => getV_of_execLdr_range hm h, keeps_of_execLdr h⟩
  case value => exact (getV_of_execLdr_single hm h x).trans (if_pos rfl)
  case frame => exact (getV_of_execLdr_single hm h r).trans (if_neg (List.mem_singleton.not.mp hr))

/-! ## A load after a store (R232) -/

theorem exists_execLdr_single {u : State} (x : Reg) (hm : u.config.xferMode = .single) (hI : u.I.toNat ≤ 0xFFF) :
    ∃ w, exec (.ldr x) u = .next w ∧ w.getV x = u.byteAt u.I.toNat := by
  have h := execLdr_single x hm hI
  exact ⟨_, h, (getV_of_execLdr_single hm h x).trans (if_pos rfl)⟩

theorem exists_execLdr_range {u : State} (x : Reg) (hm : u.config.xferMode = .range)
    (hI : u.I.toNat + x.toNat ≤ 0xFFF) :
    ∃ w, exec (.ldr x) u = .next w ∧ ∀ r : Reg, r.toNat ≤ x.toNat → w.getV r = u.byteAt (u.I.toNat + r.toNat) := by
  have h := execLdr_range x hm hI
  exact ⟨_, h, fun r hr => (getV_of_execLdr_range hm h r).trans (if_pos hr)⟩

/-- Settles O38: the store leaves I alone, so the load reads the addresses the store wrote, and the store's own
check bounds them. -/
theorem storeThenLoadGivesTheValueBack : Obligations.StoreThenLoadGivesTheValueBack := by
  intro s t u x x' h hI hmem
  have hIs : u.I = s.I := hI.trans ((effect_of_exec h).I_eq nofun)
  have hp := permitted_of_exec_next h
  refine ⟨fun hs hu => ?single, fun hs hu hx => ?range, fun hs hu hfits => ?mixed⟩
  case single =>
    simp only [Permitted, hs] at hp
    obtain ⟨w, hw, hv⟩ := exists_execLdr_single x' hu (hIs ▸ hp)
    exact ⟨w, hw, by rw [hv, hmem, hIs, byteAt_of_execStr_single hs h]⟩
  case range =>
    simp only [Permitted, hs] at hp
    obtain ⟨w, hw, hv⟩ := exists_execLdr_range x' hu (by rw [hIs]; omega)
    exact ⟨w, hw, fun r hr => by rw [hv r hr, hmem, hIs, byteAt_of_execStr_range hs h (hr.trans hx)]⟩
  case mixed =>
    obtain ⟨w, hw, hv⟩ := exists_execLdr_range x' hu hfits
    have hzero : w.getV 0#4 = u.byteAt u.I.toNat := hv 0#4 (Nat.zero_le _)
    exact ⟨w, hw, by rw [hzero, hmem, hIs, byteAt_of_execStr_single hs h]⟩

end Sys2Proof.Machine
end

section
/-! Proofs about the fatal conditions (spec/60_exceptions.md): what a condition says about the state that raised
it, the unknown word in both policies, the load that does not fit, the session after a report, and the timers. -/

namespace Sys2Proof.Machine

/-! ## The words without a row (spec/30_encoding.md R121) -/

theorem decode_of_no_row_selects {w : Word} (h : ∀ r ∈ opcodeRows, r.selects w = false) :
    decode w = .error (.unknownOpcode w) := by
  refine (selects_or_unknown w).resolve_left fun ⟨op, hsel⟩ => ?_
  exact Bool.eq_false_iff.mp (h op.row (mem_opcodeRows.mpr ⟨op, rfl⟩)) hsel

theorem no_row_selects_of_decode_error {w : Word} {e : DecodeError} (hd : decode w = .error e) :
    ∀ r ∈ opcodeRows, r.selects w = false := by
  intro r hr
  obtain ⟨op, rfl⟩ := mem_opcodeRows.mp hr
  exact Bool.eq_false_iff.mpr fun hsel => nomatch (decode_of_selects hsel).symm.trans hd

/-! ## What an instruction raises (R243, R244, R246) -/

/-- The instructions that access memory at I. -/
def accessOpcodes : List Opcode := [.drw, .str, .ldr]

/-- An access whose check fails, in either mode, names the lowest address accessed above 0xFFF (R148). -/
theorem exec_access_outOfBounds {i : Instr} {s : State} (hi : i.op ∈ accessOpcodes) (h : ¬ Permitted i s) :
    exec i s = .fault (.memoryOutOfBounds (max s.I.toNat 0x1000)) := by
  cases i with
  | drw x y n => exact execDrw_outOfBounds x y h
  | str x =>
    cases hm : s.config.xferMode <;> simp only [Permitted, hm] at h
    · rw [execStr_single_outOfBounds x hm h, max_eq_left (Nat.not_le.mp h)]
    · exact execStr_range_outOfBounds x hm h
  | ldr x =>
    cases hm : s.config.xferMode <;> simp only [Permitted, hm] at h
    · rw [execLdr_single_outOfBounds x hm h, max_eq_left (Nat.not_le.mp h)]
    · exact execLdr_range_outOfBounds x hm h
  | _ => simp [Instr.op, accessOpcodes] at hi

/-- The fatal conditions of an instruction's own check, with their causes. -/
inductive Raises (s : State) : Instr → Fault → Prop
  | underflow : s.sp = 0#4 → Raises s .ret (.stackUnderflow s.pc)
  | overflow (nnn : Addr) : s.sp = 15#4 → Raises s (.call nnn) (.stackOverflow s.pc)
  | access (i : Instr) : i.op ∈ accessOpcodes → ¬ Permitted i s →
      Raises s i (.memoryOutOfBounds (max s.I.toNat 0x1000))

theorem exec_of_raises {i : Instr} {s : State} {f : Fault} (h : Raises s i f) : exec i s = .fault f := by
  cases h with
  | underflow hsp => exact execRet_underflow hsp
  | overflow nnn hsp => exact execCall_overflow nnn hsp
  | access _ hi hp => exact exec_access_outOfBounds hi hp

theorem exists_raises_of_not_permitted {i : Instr} {s : State} (h : ¬ Permitted i s) : ∃ f, Raises s i f := by
  cases i with
  | ret => exact ⟨_, .underflow (not_not.mp h)⟩
  | call nnn => exact ⟨_, .overflow nnn (not_not.mp h)⟩
  | drw | str | ldr => exact ⟨_, .access _ (by simp [Instr.op, accessOpcodes]) h⟩
  | _ => exact absurd trivial h

/-- An instruction raises a condition only for its cause. -/
theorem raises_of_exec {i : Instr} {s : State} {f : Fault} (h : exec i s = .fault f) : Raises s i f := by
  have hp : ¬ Permitted i s := fun hp => by
    obtain ⟨t, ht⟩ := exec_next_of_permitted hp
    exact nomatch ht.symm.trans h
  obtain ⟨g, hg⟩ := exists_raises_of_not_permitted hp
  obtain rfl : g = f := Host.Outcome.fault.inj ((exec_of_raises hg).symm.trans h)
  exact hg

/-! ## What a cycle raises (R240 to R247) -/

/-- A cycle that faults failed at the fetch, at an unknown word in policy `strict`, or at the check of the
instruction it fetched, in this order (R148). -/
theorem step_fault_cases {s : State} {f : Fault} (h : step s = .fault f) :
    (0xFFE < s.pc.toNat ∧ f = .fetchOutOfBounds s.pc) ∨ ∃ w, s.fetchWord = some w ∧
      ((∃ e, decode w = .error e ∧ s.config.unknownPolicy = .strict ∧ f = .unknownOpcode w) ∨
        ∃ i, decode w = .ok i ∧ Raises s i f) := by
  rcases Nat.lt_or_ge 0xFFE s.pc.toNat with hpc | hpc
  · rw [step_of_pc_gt hpc] at h
    cases h
    exact .inl ⟨hpc, rfl⟩
  · have hw := State.fetchWord_of_le hpc
    refine .inr ⟨_, hw, ?_⟩
    cases hd : decode (wordOfBytes (s.byteAt s.pc.toNat) (s.byteAt (s.pc.toNat + 1))) with
    | ok i =>
      rw [step_of_decode_ok hw hd] at h
      exact .inr ⟨i, rfl, raises_of_exec h⟩
    | error e =>
      rw [step_of_decode_error hw hd] at h
      cases hp : s.config.unknownPolicy with
      | strict =>
        rw [unknownOpcode_of_strict hp] at h
        cases h
        exact .inl ⟨e, rfl, rfl, rfl⟩
      | permissive =>
        rw [unknownOpcode_of_permissive hp] at h
        cases h

/-- Settles O11: the cases of `step_fault_cases`, each with its condition and its cause. -/
theorem fatalConditionNamesItsCause : Obligations.FatalConditionNamesItsCause := by
  intro s f h
  obtain ⟨hpc, rfl⟩ | ⟨w, hw, ⟨e, hd, hp, rfl⟩ | ⟨i, hd, hraise⟩⟩ := step_fault_cases h
  · exact ⟨rfl, hpc⟩
  · exact ⟨hw, no_row_selects_of_decode_error hd, hp⟩
  · cases hraise with
    | underflow hsp => exact ⟨rfl, hsp, w, hw, hd⟩
    | overflow nnn hsp => exact ⟨rfl, hsp, w, nnn, hw, hd⟩
    | access _ hi hp => exact ⟨rfl, w, i, hw, hd, hi, hp⟩

/-- Settles O8: the fetch faults from pc 0xFFF up, and by O11 the condition is raised there only. -/
theorem fetchOutOfBoundsExactly : Obligations.FetchOutOfBoundsExactly := by
  refine fun s p => ⟨fun h => ?_, fun ⟨hpc, hp⟩ => hp ▸ step_of_pc_gt hpc⟩
  obtain ⟨hp, hpc⟩ := fatalConditionNamesItsCause s _ h
  exact ⟨hpc, hp⟩

/-- Settles O34: the check of each access fails, and I lies below 0x1000. -/
theorem accessBeyondMemoryIsFatal : Obligations.AccessBeyondMemoryIsFatal := by
  intro s hI
  have hfault {i : Instr} (hi : i.op ∈ accessOpcodes) (hp : ¬ Permitted i s) :
      exec i s = .fault (.memoryOutOfBounds 0x1000) := by
    rw [exec_access_outOfBounds hi hp, max_eq_right (Nat.le_succ_of_le hI)]
  refine ⟨fun x y n hn hout => ?_, fun x hm hout => ⟨?_, ?_⟩⟩
  case refine_1 => exact hfault (by simp [Instr.op, accessOpcodes]) (by simp only [Permitted]; omega)
  all_goals exact hfault (by simp [Instr.op, accessOpcodes]) (by simpa only [Permitted, hm, not_le] using hout)

/-! ## The unknown word (R242, R269) -/

/-- A cycle that completes with a report answers it. -/
theorem executeCycle_of_report {s t : State} {w pc : Word} (h : step s = .next t)
    (hr : s.cycleReport = some (w, pc)) : executeCycle s = (t, .okUnknown w pc) := by
  simp only [executeCycle, h, hr, settle]

/-- Settles O9: a word no row selects is an unknown opcode, and the policy says what follows. -/
theorem unknownOpcodeUnderBothPolicies : Obligations.UnknownOpcodeUnderBothPolicies := by
  intro s w hw hrows
  have hd := decode_of_no_row_selects hrows
  have hstep := step_of_decode_error hw hd
  exact ⟨fun hp => executeCycle_of_report (hstep.trans (unknownOpcode_of_permissive hp))
      (cycleReport_of_decode_error hw hd hp),
    fun hp => executeCycle_of_fault (hstep.trans (unknownOpcode_of_strict hp))⟩

/-! ## The load that does not fit (R247, spec/70_reset_and_hazards.md R283) -/

section
variable (s : State) {image : List Byte}

theorem loadProgram_of_too_long (h : maxImage < image.length) :
    loadProgram image s = .fault (.loadError image.length) :=
  if_neg fun hfits => Nat.not_le.mpr h (of_decide_eq_true hfits)

theorem perform_load_of_too_long (h : maxImage < image.length) :
    perform (.loadProgram image) s = (s, .fatal (.loadError image.length)) := by
  rw [perform, loadProgram_of_too_long s h, settle]

end

/-- Settles O47: a load of a longer image faults; that no cycle does so is O11's clause on LoadError. -/
theorem loadErrorCopiesNothing : Obligations.LoadErrorCopiesNothing := by
  refine ⟨fun s image hlen => ⟨loadProgram_of_too_long s hlen, perform_load_of_too_long s hlen, ?_⟩,
    fun s n h => fatalConditionNamesItsCause s _ h⟩
  rintro d rfl hd
  rw [operate_load_of_none hd, perform_load_of_too_long d.machine hlen]

/-! ## A session after a fatal condition (R245, R251) -/

section
variable {s t : State} {f : Fault} {d : Session}

theorem step_of_sameButTimers (h : SameButTimers s t) (hf : step s = .fault f) : step t = .fault f :=
  (congrArg step h).trans (step_setTimers_of_fault s t.DT t.ST hf)

theorem sameButTimers_tick (h : SameButTimers s t) : SameButTimers s (tick t) :=
  congrArg tick h

/-- A cycle of a session that faults leaves the Machine and reports the condition. -/
theorem operate_executeCycle_of_fault (h : step d.machine = .fault f) :
    operate .executeCycle d = ({ machine := d.machine, reported := some f }, .fatal f) := by
  rw [operate_executeCycle, executeCycle_of_fault h]
  rfl

/-- Where a session stands whose cycle reported `f` in state `s`, until `init`. -/
structure StuckAt (s : State) (f : Fault) (d : Session) : Prop where
  machine : SameButTimers s d.machine
  reported : d.reported = some f

/-- Every operation but `init` leaves the session there: a tick changes the timers, a cycle faults again, a
load is not accepted. -/
theorem stuckAt_operate (hf : step s = .fault f) {op : Operation} (hop : op ≠ .init) (h : StuckAt s f d) :
    StuckAt s f (operate op d).1 := by
  obtain ⟨hmachine, hreported⟩ := h
  cases op with
  | init => exact absurd rfl hop
  | loadProgram image =>
    rw [operate_load_of_reported hreported]
    exact ⟨hmachine, hreported⟩
  | executeCycle =>
    rw [operate_executeCycle_of_fault (step_of_sameButTimers hmachine hf)]
    exact ⟨hmachine, rfl⟩
  | tick => exact ⟨sameButTimers_tick hmachine, hreported⟩

theorem stuckAt_operateAll (hf : step s = .fault f) {ops : List Operation} (hops : Operation.init ∉ ops)
    (h : StuckAt s f d) : StuckAt s f (operateAll ops d) := by
  induction ops generalizing d with
  | nil => exact h
  | cons op ops ih =>
    obtain ⟨hop, hops⟩ := not_or.mp (mt List.mem_cons.mpr hops)
    exact ih hops (stuckAt_operate hf (Ne.symm hop) h)

end

/-- Settles O50: the cycle leaves the session at the condition, and every operation but `init` keeps it there. -/
theorem fatalConditionRepeatsUntilInit : Obligations.FatalConditionRepeatsUntilInit := by
  intro d f hfatal
  have hf : step d.machine = .fault f := step_of_executeCycle_fatal hfatal
  have hcycle := operate_executeCycle_of_fault hf
  refine ⟨congrArg Prod.fst hcycle, fun ops hops => ?_⟩
  obtain ⟨hmachine, hreported⟩ : StuckAt d.machine f (operateAll (.executeCycle :: ops) d) := by
    rw [operateAll, hcycle]
    exact stuckAt_operateAll hf hops ⟨rfl, rfl⟩
  have hstep := step_of_sameButTimers hmachine hf
  refine ⟨hmachine, hreported, ?_, hstep, ?_, operate_load_of_reported hreported, ?_⟩
  case refine_1 => rw [operate_executeCycle_of_fault hstep]
  case refine_2 => rw [operate_tick, hreported]
  case refine_3 => rw [operate_init, operateAll_config]

/-! ## The timers (R261, R263, R264) -/

theorem toNat_tickDown (b : Byte) : (tickDown b).toNat = if b.toNat > 0 then b.toNat - 1 else 0 := by
  unfold tickDown
  split
  case isTrue => exact Nat.mod_eq_of_lt (Nat.lt_of_le_of_lt (Nat.sub_le _ _) b.isLt)
  case isFalse h => exact Nat.eq_zero_of_not_pos h

/-- Settles O40: `tick` is `tickDown` of each timer. -/
theorem tickDecrementsBothTimersClampedAtZero : Obligations.TickDecrementsBothTimersClampedAtZero := by
  refine fun s => ⟨toNat_tickDown s.DT, toNat_tickDown s.ST, rfl, rfl, ?_⟩
  rintro d rfl hd
  rw [operate_tick, hd]

/-- Settles O41: the output is the decision of the comparison. -/
theorem soundIsActiveWhileTheTimerRuns : Obligations.SoundIsActiveWhileTheTimerRuns :=
  fun _ => decide_eq_true_iff

/-- Settles O44: the invariant of every reachable state has both timers at 0. -/
theorem timersStayZero : Obligations.TimersStayZero := by
  intro s h
  have hs := machineInv_of_reachable h
  refine ⟨hs.delayTimer, hs.soundTimer, hs.tick_eq, ?_⟩
  rw [isSoundActive, hs.soundTimer]
  rfl

end Sys2Proof.Machine
end

section
/-! Proofs about running off the end of memory (spec/70_reset_and_hazards.md R289): a zero word clears the display,
so a run of them ends at 0x1000 with the display clear and nothing else changed. -/

namespace Sys2Proof.Machine

section
variable {s : State}

/-- The word 0x0000 is CLS (R116, D5). -/
theorem step_of_zero_bytes (hpc : s.pc.toNat ≤ 0xFFE)
    (hzero : ∀ a, s.pc.toNat ≤ a → a ≤ 0xFFF → s.byteAt a = 0x00#8) :
    step s = .next (s.setDisp Display.clear).advance := by
  have hw : s.fetchWord = some (wordOfBytes 0x00#8 0x00#8) := by
    rw [State.fetchWord_of_le hpc, hzero _ le_rfl (by omega), hzero (s.pc.toNat + 1) (by omega) (by omega)]
  have hd : decode (wordOfBytes 0x00#8 0x00#8) = .ok .cls := by decide
  exact step_of_decode_ok hw hd

/-- Where a program counter that runs off the end of memory arrives, once a cycle has cleared the display. -/
def State.ranOffTheEnd (s : State) : State := (s.setDisp Display.clear).setPc 0x1000#16

/-- By induction on the number of zero words after the first; a clear forgets the clears before it. -/
theorem run_of_zero_bytes {k : Nat} (hpc : s.pc.toNat + 2 * (k + 1) = 0x1000)
    (hzero : ∀ a, s.pc.toNat ≤ a → a ≤ 0xFFF → s.byteAt a = 0x00#8) :
    Host.Core.run Sys2Proof.core (k + 1) s = .next s.ranOffTheEnd := by
  induction k generalizing s with
  | zero =>
    have hstep := step_of_zero_bytes (by omega) hzero
    have hnext : s.pc + 2#16 = 0x1000#16 := by bv_omega
    have hend : (s.setDisp Display.clear).advance = s.ranOffTheEnd :=
      congrArg (s.setDisp Display.clear).setPc hnext
    rw [run_succ_of_next 0 hstep, hend]
    rfl
  | succ k ih =>
    have hstep := step_of_zero_bytes (by omega) hzero
    have hnext : (s.setDisp Display.clear).advance.pc.toNat = s.pc.toNat + 2 := by
      rw [State.advance_pc, State.setDisp_pc]
      bv_omega
    rw [run_succ_of_next (k + 1) hstep]
    exact ih (by omega) fun a ha => hzero a (by omega)

theorem State.ranOffTheEnd_keeps (s : State) :
    KeepsRegsBut [] s s.ranOffTheEnd ∧ KeepsMem s s.ranOffTheEnd ∧ s.ranOffTheEnd.I = s.I ∧
      KeepsStack s s.ranOffTheEnd :=
  ⟨fun _ _ => rfl, fun _ => rfl, rfl, rfl, fun _ => rfl⟩

theorem step_of_pc_at_end (h : s.pc = 0x1000#16) : step s = .fault (.fetchOutOfBounds 0x1000#16) :=
  h ▸ step_of_pc_gt (h ▸ by decide)

end

/-- Settles O51: from 0x1000 no cycle runs; from below, the run of `run_of_zero_bytes`. -/
theorem runningOffTheEndClearsThenFaults : Obligations.RunningOffTheEndClearsThenFaults := by
  intro s hle heven hzero
  rcases hle.eq_or_lt with hend | hlt
  case inl =>
    have hpc : s.pc = 0x1000#16 := BitVec.eq_of_toNat_eq hend
    refine ⟨s, by rw [hend]; rfl, hpc, fun _ _ => rfl, fun _ => rfl, rfl, ⟨rfl, fun _ => rfl⟩, ?_,
      step_of_pc_at_end hpc⟩
    exact fun hlt => absurd hend hlt.ne
  case inr =>
    obtain ⟨k, hk⟩ : ∃ k, s.pc.toNat + 2 * (k + 1) = 0x1000 := ⟨(0x1000 - s.pc.toNat) / 2 - 1, by omega⟩
    have hcycles : (0x1000 - s.pc.toNat) / 2 = k + 1 := by omega
    obtain ⟨hregs, hmem, hI, hstack⟩ := s.ranOffTheEnd_keeps
    rw [hcycles]
    exact ⟨s.ranOffTheEnd, run_of_zero_bytes hk hzero, rfl, hregs, hmem, hI, hstack,
      fun _ => Display.cell_clear, step_of_pc_at_end rfl⟩

end Sys2Proof.Machine
end
